-- ==== Sys2Proof/Word.lean ====
section
/-! DEFINITION. The word and byte types of the hardware and the register number (00_scope.md R8). -/

namespace Sys2Proof

/-- XLEN = ILEN = 32: the width of a general register, of the program counter and of an instruction (R8). -/
abbrev Word := BitVec 32

/-- One byte of the image (R30). -/
abbrev Byte := BitVec 8

/-- A register number, 0 to 31: every 5-bit field names a register (R51). -/
abbrev RegIdx := Fin 32

end Sys2Proof
end

