-- ==== Sys2Proof/Machine/Flags.lean ====
section
/-! DEFINITION. The two arithmetic results (43_add_sub.md R77). The hardware has NO flags (10_state.md R27): carry, borrow,
overflow, sign and zero are recorded nowhere, so no flag computation exists. -/

namespace Sys2Proof.Machine

/-- Addition modulo 2^32 (R77, R11). -/
def addWrap (a b : Word) : Word := a + b

/-- Subtraction modulo 2^32, first minus second (R77, R76, R11). -/
def subWrap (a b : Word) : Word := a - b

end Sys2Proof.Machine
end

