-- ==== Sys2Proof/Syntax.lean ====
section
/-! DEFINITION. The instructions: one constructor per row of opcode_table.json (30_encoding.md R59). -/

namespace Sys2Proof

/-- The variants of the decoded operation that are instructions, with the fields R59 says each carries; an immediate
is carried as the 32-bit value of R49 or R50 (DEDUCED from R59's table, log 14). -/
inductive Instr where
  /-- LOAD-UPPER-IMMEDIATE (R71): `imm` is imm_U(w), its low 12 bits zero. -/
  | lui (rd : RegIdx) (imm : Word)
  /-- ADD-IMMEDIATE (R73): `imm` is imm_I(w), already sign-extended. -/
  | addi (rd rs1 : RegIdx) (imm : Word)
  /-- ADD (R75). -/
  | add (rd rs1 rs2 : RegIdx)
  /-- SUBTRACT (R76): `rs1` is the minuend, `rs2` the subtrahend. -/
  | sub (rd rs1 rs2 : RegIdx)
  /-- ENVIRONMENT-CALL (R78): no operands. -/
  | ecall
deriving DecidableEq, Repr

/-- The Decoder's output (R59): an instruction, or the verdict UNRECOGNIZED (R57), which is no instruction. -/
inductive Operation where
  | instr (i : Instr)
  | unrecognized
deriving DecidableEq, Repr

end Sys2Proof
end

