-- ==== Sys2Proof/Decode.lean ====
section
/-! DEFINITION. The Decoder (30_encoding.md R47 to R57), total on every word and every list of bytes, and the encoder
(R59) written from the same fields. -/

namespace Sys2Proof

/-- The opcode field, w[6:0] (R47). -/
def opcodeField (w : Word) : BitVec 7 := w.extractLsb' 0 7

/-- The funct3 field, w[14:12] (R47). -/
def funct3Field (w : Word) : BitVec 3 := w.extractLsb' 12 3

/-- The funct7 field, w[31:25] (R47). -/
def funct7Field (w : Word) : BitVec 7 := w.extractLsb' 25 7

/-- A 5-bit field as the register number it is (R51). -/
def regOfBits (b : BitVec 5) : RegIdx := ⟨b.toNat, b.isLt⟩

/-- A register number as the 5-bit field that names it (R51). -/
def bitsOfReg (r : RegIdx) : BitVec 5 := BitVec.ofNat 5 r.val

/-- rd = w[11:7] (R47). -/
def rdField (w : Word) : RegIdx := regOfBits (w.extractLsb' 7 5)

/-- rs1 = w[19:15] (R47). -/
def rs1Field (w : Word) : RegIdx := regOfBits (w.extractLsb' 15 5)

/-- rs2 = w[24:20] (R47). -/
def rs2Field (w : Word) : RegIdx := regOfBits (w.extractLsb' 20 5)

/-- imm_U(w) = w[31:12] || 000000000000 (R49). -/
def immU (w : Word) : Word := w.extractLsb' 12 20 ++ 0#12

/-- imm_I(w) = sext_12(w[31:20]) (R50; sign extension is mandated, C1). -/
def immI (w : Word) : Word := (w.extractLsb' 20 12).signExtend 32

/-- LUI's opcode (R53). -/
def opLui : BitVec 7 := 0b0110111#7
/-- ADDI's opcode (R54). -/
def opImm : BitVec 7 := 0b0010011#7
/-- The opcode ADD and SUB share (R55). -/
def opReg : BitVec 7 := 0b0110011#7
/-- ECALL's opcode (R56). -/
def opSystem : BitVec 7 := 0b1110011#7
/-- funct3 of ADDI (R54), and of ADD and SUB (R55; for these two PRESUMED by the spec from RV32I, log 7). -/
def funct3Add : BitVec 3 := 0b000#3
/-- funct7 of ADD (R55; PRESUMED by the spec from RV32I, log 7). -/
def funct7Add : BitVec 7 := 0b0000000#7
/-- funct7 of SUB (R55; PRESUMED by the spec from RV32I, log 7). -/
def funct7Sub : BitVec 7 := 0b0100000#7

/-- The Decoder, in the order of R52's function. ECALL is matched on the opcode alone (R56, C8); ADD and SUB compare
the whole funct3 and funct7 fields (R55, D2, C10). -/
def decodeWord (w : Word) : Operation :=
  if opcodeField w = opLui then .instr (.lui (rdField w) (immU w))
  else if opcodeField w = opImm ∧ funct3Field w = funct3Add then .instr (.addi (rdField w) (rs1Field w) (immI w))
  else if opcodeField w = opReg ∧ funct3Field w = funct3Add ∧ funct7Field w = funct7Add then
    .instr (.add (rdField w) (rs1Field w) (rs2Field w))
  else if opcodeField w = opReg ∧ funct3Field w = funct3Add ∧ funct7Field w = funct7Sub then
    .instr (.sub (rdField w) (rs1Field w) (rs2Field w))
  else if opcodeField w = opSystem then .instr .ecall
  else .unrecognized

/-- The encoder (R59; formats R48). The immediate's field is the part of the carried value the format holds. -/
def encode : Instr → Word
  | .lui rd imm => imm.extractLsb' 12 20 ++ bitsOfReg rd ++ opLui
  | .addi rd rs1 imm => imm.extractLsb' 0 12 ++ bitsOfReg rs1 ++ funct3Add ++ bitsOfReg rd ++ opImm
  | .add rd rs1 rs2 => funct7Add ++ bitsOfReg rs2 ++ bitsOfReg rs1 ++ funct3Add ++ bitsOfReg rd ++ opReg
  | .sub rd rs1 rs2 => funct7Sub ++ bitsOfReg rs2 ++ bitsOfReg rs1 ++ funct3Add ++ bitsOfReg rd ++ opReg
  | .ecall => 0#25 ++ opSystem

/-- The word of four image bytes, the byte at the lowest offset least significant (20_memory.md R33). -/
def wordOfBytes (b0 b1 b2 b3 : Byte) : Word := b3 ++ b2 ++ b1 ++ b0

/-- Byte `k` (0 to 3) of a word in image order (R33). -/
def byteOfWord (w : Word) (k : Nat) : Byte := w.extractLsb' (8 * k) 8

/-- The four bytes of a word in image order (R33). -/
def bytesOfWord (w : Word) : List Byte := [byteOfWord w 0, byteOfWord w 1, byteOfWord w 2, byteOfWord w 3]

/-- What a list of image bytes begins with: an instruction and the bytes after it, a word that is UNRECOGNIZED (R57), or
fewer than the four bytes an instruction has (R46). -/
inductive ByteDecode where
  | instr (i : Instr) (rest : List Byte)
  | unrecognized (w : Word) (rest : List Byte)
  | truncated
deriving DecidableEq, Repr

/-- The Decoder on bytes: the first four make the word (R33, R46). -/
def decodeBytes : List Byte → ByteDecode
  | b0 :: b1 :: b2 :: b3 :: rest =>
    match decodeWord (wordOfBytes b0 b1 b2 b3) with
    | .instr i => .instr i rest
    | .unrecognized => .unrecognized (wordOfBytes b0 b1 b2 b3) rest
  | _ => .truncated

/-- The word whose low `nbits` bits are those of `w` and whose other bits are 0. -/
def tableWord (nbits w : Nat) : Word := BitVec.ofNat 32 (w % 2 ^ nbits)

/-- The instruction the decoder reads from the word of an opcode-table row, laid out as the image stores it. -/
def decodeTableWord (nbits w : Nat) : Option Instr :=
  match decodeBytes (bytesOfWord (tableWord nbits w)) with
  | .instr i _ => some i
  | .unrecognized _ _ => none
  | .truncated => none

end Sys2Proof
end

