-- ==== Sys2Proof/Config.lean ====
section
/-! DEFINITION. The parameters the spec leaves to an implementation (00_scope.md R9). There is no free value:
R62 leaves no value of a step open. -/

namespace Sys2Proof

/-- The bound on LEN_WORDS, 2^30 - 1 (R9, D3; DESIGN CHOICE of the spec, log 3): a longer image is refused. -/
def Config.maxImageWords : Nat := 1073741823

/-- PC_UNIT (R9, D1): whether the program counter counts 32-bit words (1) or bytes (4). Both conventions are
modelled; the value a run has is `State.pcUnit`, and reset takes `byte` (log 1). -/
inductive PcUnit where
  /-- PC_UNIT = 1: index = pc. -/
  | word
  /-- PC_UNIT = 4: index = pc div 4. -/
  | byte
deriving DecidableEq, Repr

end Sys2Proof
end

