-- ==== Sys2Proof/Machine/State.lean ====
section
/-! DEFINITION. The state of the block (10_state.md R17), with the parameters of its run (R26), and the reset state
(R28). Plain data. -/

namespace Sys2Proof.Machine

/-- What a fault records (R25, R80, R81). Both faults are the hardware's own: they end the run in a NEXT state that
records them (60_exceptions.md R86), so they are no constructors of `Fault`. -/
inductive FaultInfo where
  /-- FetchOutOfBounds: the offending address, which is the pc in PC_UNIT units (R80, D13). -/
  | fetchOutOfBounds (addr : Word)
  /-- UnrecognizedInstruction: the offending word and the pc it was fetched from (R81, D13). -/
  | unrecognizedInstruction (word pc : Word)
deriving DecidableEq, Repr

/-- The run status (R25), each fault value with its information. -/
inductive Status where
  /-- RUNNING: no termination condition has occurred. -/
  | running
  /-- HALTED: an ECALL was executed; the successful end. -/
  | halted
  /-- FAULT_FETCH_OOB, with the offending address. -/
  | faultFetchOob (addr : Word)
  /-- FAULT_UNRECOGNIZED, with the offending word and its pc. -/
  | faultUnrecognized (word pc : Word)
deriving DecidableEq, Repr

/-- The instruction memory (20_memory.md R30): LEN_WORDS words, of which `cells` lists the bytes that differ from what
an unlisted offset reads as, in strictly rising order. The bound on `lenWords` is D3's (log 3). -/
structure Memory where
  cells : List Host.Cell
  lenWords : Fin (Config.maxImageWords + 1)
deriving DecidableEq, Repr

/-- The architectural state (R17): the registers x[1] to x[31] (x[0] has no storage: R21, D12), the program counter
and the status with its fault information; and the parameters of the run (R26), which no step changes: the image and
PC_UNIT. -/
structure State where
  /-- Slot `i - 1` holds x[i], for `i` from 1 to 31 (R18). -/
  gprs : Vector Word 31
  /-- The program counter, in PC_UNIT units (R22). -/
  pc : Word
  status : Status
  mem : Memory
  pcUnit : PcUnit
deriving DecidableEq, Repr

/-- Why a step has no successor. -/
inductive Fault where
  /-- Raised by `step` in a state whose status is terminal: HALTED and the two faults have no successor (R67, D7, log 5).
  It is the stuck state after the end of a run, not a fault of the hardware. Safe. -/
  | terminated (status : Status)
deriving DecidableEq, Repr

/-- Why the model gives a state no meaning. -/
inductive Refusal where
  /-- Raised by `exec` for an instruction without a meaning yet; no arm answers so now. Safe. -/
  | notModelled (mnemonic : String)
  /-- Raised by `step` when the pc is no multiple of PC_UNIT: 20_memory.md R40 requires the refusal (D8, U1, log 4). Safe:
  no state reached from reset is such a state. -/
  | misalignedPc (pc : Word)
deriving DecidableEq, Repr

/-- The state after reset (R28, R98): every register and the pc zero, RUNNING, no fault information. PC_UNIT is 4 (D1, log 1);
the image is an argument of a run, and before one is loaded the memory is empty (log 2). -/
def State.reset : State where
  gprs := Vector.replicate 31 0#32
  pc := 0#32
  status := .running
  mem := { cells := [], lenWords := 0 }
  pcUnit := .byte

end Sys2Proof.Machine
end

