-- ==== Sys2Proof/Machine/Ops.lean ====
section
/-! DEFINITION. The named operations over memory and registers, the pc-to-index translator, taking a fault and halting.
There is no return from a fault beside it: R88 says that none exists. -/

namespace Sys2Proof

/-- The number of pc units per instruction, 1 or 4 (00_scope.md R9). -/
def PcUnit.toNat : PcUnit → Nat
  | .word => 1
  | .byte => 4

/-- PC_UNIT as the 32-bit value the pc advances by (R65). -/
def PcUnit.toWord (u : PcUnit) : Word := BitVec.ofNat 32 u.toNat

namespace Machine

/-! ### The register file (00_scope.md R15's contract) -/

/-- `read(index)` (10_state.md R19): x[0] is 0. -/
def State.readReg (s : State) (r : RegIdx) : Word :=
  if h : r.val = 0 then 0#32 else s.gprs[r.val - 1]'(by have := r.isLt; omega)

/-- `write(index, value)` (R20): a write to index 0 is discarded. -/
def State.writeReg (s : State) (r : RegIdx) (v : Word) : State :=
  if h : r.val = 0 then s else { s with gprs := s.gprs.set (r.val - 1) v (by have := r.isLt; omega) }

/-- `advance(delta)` with the only delta the Executor passes, PC_UNIT (40_execution_cycle.md R65); modulo 2^32 (R24). -/
def State.advance (s : State) : State := { s with pc := s.pc + s.pcUnit.toWord }

/-! ### The instruction memory (20_memory.md) -/

/-- What an unlisted offset inside the image reads as (the model's representation of a zero byte, log 2). -/
def unlistedByte : Byte := 0#8

/-- The byte the list gives offset `a`. -/
def byteInCells (a : Nat) : List Host.Cell → Byte
  | [] => unlistedByte
  | (a', b) :: rest => if a' = a then b else byteInCells a rest

/-- LEN_BYTES (R30). -/
def Memory.lenBytes (m : Memory) : Nat := 4 * m.lenWords.val

/-- The byte at offset `a` of the image; none where the image has no such byte (R30, R35). -/
def Memory.readByte (m : Memory) (a : Nat) : Option Byte :=
  if a < m.lenBytes then some (byteInCells a m.cells) else none

/-- MemRead(a, 4) (R33), defined for an aligned offset whose four bytes are in the image. -/
def Memory.readWord (m : Memory) (a : Nat) : Option Word :=
  if a % 4 = 0 then
    match m.readByte a, m.readByte (a + 1), m.readByte (a + 2), m.readByte (a + 3) with
    | some b0, some b1, some b2, some b3 => some (wordOfBytes b0 b1 b2 b3)
    | _, _, _, _ => none
  else none

/-- Canonical cells: offsets from `lo` up strictly rising and below `hi`, no entry equal to what an unlisted offset
reads as. -/
def cellsCanonical (lo hi : Nat) : List Host.Cell → Bool
  | [] => true
  | (a, b) :: rest => decide (lo ≤ a) && decide (a < hi) && (b != unlistedByte) && cellsCanonical (a + 1) hi rest

/-- The canonical form of the memory: equal memories are equal data. -/
def Memory.wf (m : Memory) : Bool := cellsCanonical 0 m.lenBytes m.cells

/-- The cells of consecutive bytes from offset `a` on. -/
def cellsOfBytes (a : Nat) : List Byte → List Host.Cell
  | [] => []
  | b :: bs => if b = unlistedByte then cellsOfBytes (a + 1) bs else (a, b) :: cellsOfBytes (a + 1) bs

/-- The result of installing an image (R31, R82). -/
inductive LoadResult where
  | ok (m : Memory)
  /-- MISALIGNED_IMAGE: the length is no multiple of 4; nothing is installed. -/
  | misalignedImage
  /-- More than 2^30 - 1 words: refused by the model (D3, U13, log 3). -/
  | imageTooLong
deriving DecidableEq, Repr

/-- `load(bytes)` (00_scope.md R14, 20_memory.md R31): byte k of the image is byte offset k of the memory (R30). A
zero-length image loads (R32, log 9). -/
def Memory.load (bytes : List Byte) : LoadResult :=
  if bytes.length % 4 = 0 then
    if h : bytes.length / 4 < Config.maxImageWords + 1 then
      .ok { cells := cellsOfBytes 0 bytes, lenWords := ⟨bytes.length / 4, h⟩ }
    else .imageTooLong
  else .misalignedImage

/-- The cells after byte `b` is put at offset `a`, in canonical form. -/
def putCell (a : Nat) (b : Byte) : List Host.Cell → List Host.Cell
  | [] => if b = unlistedByte then [] else [(a, b)]
  | (a', b') :: rest =>
    if a < a' then if b = unlistedByte then (a', b') :: rest else (a, b) :: (a', b') :: rest
    else if a = a' then if b = unlistedByte then rest else (a, b) :: rest
    else (a', b') :: putCell a b rest

/-- The cells after the four bytes of `w` are put from offset `a` on (R33). -/
def putWordCells (a : Nat) (w : Word) (cells : List Host.Cell) : List Host.Cell :=
  putCell (a + 3) (byteOfWord w 3) (putCell (a + 2) (byteOfWord w 2)
    (putCell (a + 1) (byteOfWord w 1) (putCell a (byteOfWord w 0) cells)))

/-- The memory of an image whose word `i` is `w`, made as long as that needs. NOT an operation of the hardware, which
never writes memory (R29): it stands for loading another image, and only `withFetchWord` uses it (log 2). -/
def Memory.placeWord (m : Memory) (i : Nat) (w : Word) : Memory :=
  if h : i < Config.maxImageWords then
    { cells := putWordCells (4 * i) w m.cells
      lenWords := ⟨max m.lenWords.val (i + 1), by have := m.lenWords.isLt; omega⟩ }
  else m

/-! ### Address translator, bounds check and fetch -/

/-- WordIndex(pc) = pc div PC_UNIT (R36). -/
def wordIndex (u : PcUnit) (pc : Word) : Nat := pc.toNat / u.toNat

/-- ByteOffset(pc) = 4 * WordIndex(pc) (R36). -/
def byteOffset (u : PcUnit) (pc : Word) : Nat := 4 * wordIndex u pc

/-- The pc is a multiple of PC_UNIT, the premise of a step (R40); under PC_UNIT = 1 every pc is (R39). -/
def pcAligned (u : PcUnit) (pc : Word) : Bool := pc.toNat % u.toNat == 0

/-- InBounds(pc) (R37). -/
def inBounds (m : Memory) (u : PcUnit) (pc : Word) : Bool := decide (wordIndex u pc < m.lenWords.val)

/-- `fetch_word(address)` (00_scope.md R13): none is the out-of-bounds indication, given before any read (R37); else
Fetch(pc) (R38). -/
def fetchWord (m : Memory) (u : PcUnit) (pc : Word) : Option Word :=
  if inBounds m u pc then m.readWord (byteOffset u pc) else none

/-- The fetch of the state's next instruction. -/
def State.fetch (s : State) : Option Word := fetchWord s.mem s.pcUnit s.pc

/-! ### The end of a run -/

/-- The status that records a fault (R25). -/
def FaultInfo.toStatus : FaultInfo → Status
  | .fetchOutOfBounds addr => .faultFetchOob addr
  | .unrecognizedInstruction word pc => .faultUnrecognized word pc

/-- The fault information of a status (R25). -/
def Status.faultInfo : Status → Option FaultInfo
  | .running => none
  | .halted => none
  | .faultFetchOob addr => some (.fetchOutOfBounds addr)
  | .faultUnrecognized word pc => some (.unrecognizedInstruction word pc)

/-- A terminal status (R67): anything but RUNNING. -/
def Status.terminal : Status → Bool
  | .running => false
  | .halted => true
  | .faultFetchOob _ => true
  | .faultUnrecognized _ _ => true

/-- Taking a fault (60_exceptions.md R80, R81, R86): the status and its information are set and nothing else changes; no
control transfer, nothing saved. Registers and pc are kept (D6), and no statement rests on them (R87, log 6). -/
def State.raise (s : State) (f : FaultInfo) : State := { s with status := f.toStatus }

/-- `halt` (40_execution_cycle.md R66): HALTED and nothing else; the pc is not advanced. -/
def State.halt (s : State) : State := { s with status := .halted }

/-- The common end of LUI, ADDI, ADD and SUB (R62): `x[rd] <- v; pc <- pc + PC_UNIT`. -/
def State.retire (s : State) (rd : RegIdx) (v : Word) : State := (s.writeReg rd v).advance

end Machine

end Sys2Proof
end

