-- ==== Sys2Proof/Machine/Operands.lean ====
section
/-! DEFINITION. The operand forms (30_encoding.md section 3): a register or an immediate. -/

namespace Sys2Proof.Machine

/-- The two source operand forms of the hardware. -/
inductive Operand where
  /-- A register number (R51). -/
  | reg (r : RegIdx)
  /-- A 32-bit immediate (R49, R50), extended by the Decoder. -/
  | imm (v : Word)
deriving DecidableEq, Repr

/-- An operand's value in the state the instruction starts from (40_execution_cycle.md R64: sources are read before the
destination is written). Reading has no side effect (10_state.md R19). -/
def Operand.value (s : State) : Operand → Word
  | .reg r => s.readReg r
  | .imm v => v

end Sys2Proof.Machine
end

