-- ==== Sys2Proof/Machine/Arithmetic.lean ====
section
/-! DEFINITION. LUI, ADDI, ADD and SUB: `x[rd] <- value; pc <- pc + PC_UNIT`. None can fault, on any operand. -/

namespace Sys2Proof.Machine

/-- LUI (41_lui.md R71): the immediate is written as an absolute value. -/
def execLui (rd : RegIdx) (imm : Word) (s : State) : Host.Outcome State Fault Refusal :=
  .next (s.retire rd ((Operand.imm imm).value s))

/-- ADDI (42_addi.md R73): x[rd] <- x[rs1] + imm. -/
def execAddi (rd rs1 : RegIdx) (imm : Word) (s : State) : Host.Outcome State Fault Refusal :=
  .next (s.retire rd (addWrap ((Operand.reg rs1).value s) ((Operand.imm imm).value s)))

/-- ADD (43_add_sub.md R75): x[rd] <- x[rs1] + x[rs2]. -/
def execAdd (rd rs1 rs2 : RegIdx) (s : State) : Host.Outcome State Fault Refusal :=
  .next (s.retire rd (addWrap ((Operand.reg rs1).value s) ((Operand.reg rs2).value s)))

/-- SUB (43_add_sub.md R76): x[rd] <- x[rs1] - x[rs2]. -/
def execSub (rd rs1 rs2 : RegIdx) (s : State) : Host.Outcome State Fault Refusal :=
  .next (s.retire rd (subWrap ((Operand.reg rs1).value s) ((Operand.reg rs2).value s)))

end Sys2Proof.Machine
end

