-- ==== Sys2Proof/Machine/System.lean ====
section
/-! DEFINITION. ECALL, the only system instruction (44_ecall.md). -/

namespace Sys2Proof.Machine

/-- ECALL (R78): the run halts, whatever any register holds; no trap, no service, no pc advance. -/
def execEcall (s : State) : Host.Outcome State Fault Refusal := .next s.halt

end Sys2Proof.Machine
end

