-- ==== Sys2Proof/Machine/Cycle.lean ====
section
/-! DEFINITION. One cycle of the Executor (40_execution_cycle.md R61, R62). -/

namespace Sys2Proof.Machine

/-- Steps 2 to 5 of the cycle, in R61's order (step 1 changes nothing: R21, C4): bounds check, fetch, decode, dispatch. -/
def runningCycle (s : State) : Host.Outcome State Fault Refusal :=
  match s.fetch with
  | none => .next (s.raise (.fetchOutOfBounds s.pc))
  | some w =>
    match decodeWord w with
    | .instr i => exec i s
    | .unrecognized => .next (s.raise (.unrecognizedInstruction w s.pc))

/-- One cycle: none from a terminal status (R67, log 5), a refusal of a pc that is no multiple of PC_UNIT (20_memory.md R40,
log 4), else R62. -/
def cycle (s : State) : Host.Outcome State Fault Refusal :=
  if s.status.terminal then .fault (.terminated s.status)
  else if pcAligned s.pcUnit s.pc then runningCycle s
  else .refused (.misalignedPc s.pc)

/-- The state with `w` as the word at its pc and a status from which the Executor has a cycle (log 2). -/
def State.placeAtPc (s : State) (w : Word) : State :=
  { s with mem := s.mem.placeWord (wordIndex s.pcUnit s.pc) w, status := .running }

end Sys2Proof.Machine
end

