-- ==== Sys2Proof/Machine/HostSide.lean ====
section
/-! DEFINITION. What the host does around a run (00_scope.md R14 to R16, 70_reset_and_hazards.md R100): load, start,
execute, read the outcome and the snapshot. -/

namespace Sys2Proof.Machine

/-- The state a run starts from (R100 steps 2 and 3): the loaded memory beside the reset Register File, under either
convention of the pc (R9). -/
def State.start (u : PcUnit) (m : Memory) : State := { State.reset with mem := m, pcUnit := u }

/-- The run from a state (R62): at most `k` steps, ending at the first state whose status is terminal (R67). -/
def run : Nat → State → Host.Outcome State Fault Refusal
  | 0, s => .next s
  | k + 1, s =>
    if s.status.terminal then .next s
    else
      match step s with
      | .next t => run k t
      | .fault f => .fault f
      | .refused r => .refused r

/-- All 32 registers and the pc, as the host sees them (R16). -/
structure Snapshot where
  x : Vector Word 32
  pc : Word
deriving DecidableEq, Repr

/-- The snapshot (R16): available after HALTED only; a faulted run has none (60_exceptions.md R87); a RUNNING
state has none by the model's choice, since nothing is promised of it (R70; DESIGN CHOICE, log 11). -/
def State.snapshot (s : State) : Option Snapshot :=
  match s.status with
  | .halted => some { x := Vector.ofFn s.readReg, pc := s.pc }
  | .running => none
  | .faultFetchOob _ => none
  | .faultUnrecognized _ _ => none

/-- The outcomes of `execute` (R15): HALTED with the Register File as the result, FAULTED with its cause. -/
inductive ExecutionOutcome where
  | halted (result : Snapshot)
  | faulted (info : FaultInfo)
deriving DecidableEq, Repr

/-- The outcome a state's status stands for (R25, R97); none while RUNNING (DESIGN CHOICE, log 11). -/
def State.outcome (s : State) : Option ExecutionOutcome :=
  match s.status with
  | .running => none
  | .halted => s.snapshot.map .halted
  | .faultFetchOob addr => some (.faulted (.fetchOutOfBounds addr))
  | .faultUnrecognized word pc => some (.faulted (.unrecognizedInstruction word pc))

/-- `execute(register_file, instruction_memory)` (R15), both held in `s`: the run to its end, which LEN_WORDS + 1 cycles
reach (40_execution_cycle.md R68). None where the model refuses the start state (R40). -/
def execute (s : State) : Option ExecutionOutcome :=
  match run (s.mem.lenWords.val + 1) s with
  | .next t => t.outcome
  | .fault _ => none
  | .refused _ => none

/-- The numbers D5 proposes for the status (DESIGN CHOICE of the spec, log 12); no rule depends on them. -/
def Status.code : Status → Nat
  | .running => 0
  | .halted => 1
  | .faultFetchOob _ => 2
  | .faultUnrecognized _ _ => 3

/-- The numbers D5 proposes for the load result (log 12); the model's own refusal has none. -/
def LoadResult.code : LoadResult → Option Nat
  | .ok _ => some 0
  | .misalignedImage => some 1
  | .imageTooLong => none

end Sys2Proof.Machine
end

