-- ==== Sys2Proof/WellFormed.lean ====
section
/-! DEFINITION. The checks on an instruction: the immediate is one the encoding can carry (30_encoding.md R49, R50).
Register numbers need no check (R51). -/

namespace Sys2Proof

/-- R49: the low 12 bits of the LUI immediate are zero. -/
def immUWellFormed (imm : Word) : Bool := imm.extractLsb' 0 12 == 0#12

/-- R50: the ADDI immediate is the sign extension of its low 12 bits, -2048 to 2047. -/
def immIWellFormed (imm : Word) : Bool := imm == (imm.extractLsb' 0 12).signExtend 32

/-- An instruction that some word encodes. -/
def Instr.wf : Instr → Bool
  | .lui _ imm => immUWellFormed imm
  | .addi _ _ imm => immIWellFormed imm
  | .add _ _ _ => true
  | .sub _ _ _ => true
  | .ecall => true

end Sys2Proof
end

