-- ==== Sys2Proof/Safety.lean ====
section
/-! DEFINITION. What claims are stated in: the invariant of the machine, what a safe end of a run is, and the words the
statements share. -/

namespace Sys2Proof

/-- The destination register of an instruction: ECALL has none (30_encoding.md R59). -/
def Instr.dest : Instr → Option RegIdx
  | .lui rd _ => some rd
  | .addi rd _ _ => some rd
  | .add rd _ _ => some rd
  | .sub rd _ _ => some rd
  | .ecall => none

/-- The source registers of an instruction: LUI and ECALL read none (10_state.md R19). -/
def Instr.sources : Instr → List RegIdx
  | .lui _ _ => []
  | .addi _ rs1 _ => [rs1]
  | .add _ rs1 rs2 => [rs1, rs2]
  | .sub _ rs1 rs2 => [rs1, rs2]
  | .ecall => []

/-- The mask of the instruction's row in the opcode map (R52). -/
def Instr.rowMask : Instr → Word
  | .lui _ _ => 0x0000007F#32
  | .addi _ _ _ => 0x0000707F#32
  | .add _ _ _ => 0xFE00707F#32
  | .sub _ _ _ => 0xFE00707F#32
  | .ecall => 0x0000007F#32

/-- The match value of the instruction's row in the opcode map (R52). -/
def Instr.rowMatch : Instr → Word
  | .lui _ _ => 0x00000037#32
  | .addi _ _ _ => 0x00000013#32
  | .add _ _ _ => 0x00000033#32
  | .sub _ _ _ => 0x40000033#32
  | .ecall => 0x00000073#32

namespace Machine

/-- The parameters of the run are the same in both states (10_state.md R26): every byte of the image, its length and
PC_UNIT. -/
structure SameParameters (s t : State) : Prop where
  bytes : ∀ a, t.mem.readByte a = s.mem.readByte a
  lenWords : t.mem.lenWords = s.mem.lenWords
  pcUnit : t.pcUnit = s.pcUnit

/-- The invariant every step keeps. The memory is in canonical form; while the pc is observable it is a multiple of
PC_UNIT and at most LEN_WORDS * PC_UNIT (R23, R24); and a terminal status tells the truth about the image (R25, R66, R80,
R81). The registers and pc of a faulted state are not read (R87). -/
structure State.Inv (s : State) : Prop where
  canonical : s.mem.wf = true
  aligned : s.status = .running ∨ s.status = .halted → pcAligned s.pcUnit s.pc = true
  bounded : s.status = .running ∨ s.status = .halted → s.pc.toNat ≤ s.mem.lenWords.val * s.pcUnit.toNat
  haltedAtEcall : s.status = .halted → ∃ w, s.fetch = some w ∧ decodeWord w = .instr .ecall
  oobAtEnd : ∀ a, s.status = .faultFetchOob a → a.toNat = s.mem.lenWords.val * s.pcUnit.toNat
  unrecognizedWord : ∀ w p, s.status = .faultUnrecognized w p →
    fetchWord s.mem s.pcUnit p = some w ∧ decodeWord w = .unrecognized

/-- A safe run: the image of these bytes loads, and its run from reset halts with a result that satisfies `P`. HALTED is the
only successful end, and this is the form 40_execution_cycle.md R67 gives a claim about a program's result. -/
def HaltsWith (u : PcUnit) (bytes : List Byte) (P : Snapshot → Prop) : Prop :=
  ∃ m result, Memory.load bytes = .ok m ∧ execute (State.start u m) = some (.halted result) ∧ P result

/-- The same outcome under PC_UNIT = 4 and under PC_UNIT = 1: only the numeric value of a pc differs (00_scope.md R9). -/
def SameOutcomeUpToPcUnit : ExecutionOutcome → ExecutionOutcome → Prop
  | .halted a, .halted b => a.x = b.x ∧ a.pc.toNat = 4 * b.pc.toNat
  | .faulted (.fetchOutOfBounds a), .faulted (.fetchOutOfBounds b) => a.toNat = 4 * b.toNat
  | .faulted (.unrecognizedInstruction w p), .faulted (.unrecognizedInstruction w' p') =>
    w = w' ∧ p.toNat = 4 * p'.toNat
  | .halted _, .faulted _ => False
  | .faulted _, .halted _ => False
  | .faulted (.fetchOutOfBounds _), .faulted (.unrecognizedInstruction _ _) => False
  | .faulted (.unrecognizedInstruction _ _), .faulted (.fetchOutOfBounds _) => False

end Machine

end Sys2Proof
end

