-- ==== Sys2Proof/Certificates/Slice0/Obligations.lean ====
section
/-! DEFINITION. The statements for the provers, in the order of OBLIGATIONS.json. A statement about a step into a fault
says nothing of the registers and the pc after it (R87, log 6). -/

open Sys2Proof Sys2Proof.Machine

/-! ### The Decoder and the encoder -/

/-- Words written out from the formats and the opcode map, with what each stands for (30_encoding.md R48, R52, R57;
95_test_vectors.md 2.1). The funct fields of ADD and SUB are GK2's (log 7). -/
def Obligations.SampleWordsDecodeToTheirInstructions : Prop :=
  decodeWord 0x000012B7#32 = .instr (.lui 5 0x00001000#32) ∧
  decodeWord 0xFFD28313#32 = .instr (.addi 6 5 0xFFFFFFFD#32) ∧
  decodeWord 0x002081B3#32 = .instr (.add 3 1 2) ∧
  decodeWord 0x402081B3#32 = .instr (.sub 3 1 2) ∧
  decodeWord 0x30200073#32 = .instr .ecall ∧
  decodeWord 0x02000033#32 = .unrecognized ∧
  decodeWord 0x00000000#32 = .unrecognized

/-- R59: encoding and decoding give back every field; every decoded instruction is well-formed; a LUI, ADDI, ADD or SUB
word is given back by the encoder, and an ECALL word need not be. -/
def Obligations.DecodeAndEncodeAgree : Prop :=
  (∀ i : Instr, i.wf = true → decodeWord (encode i) = .instr i) ∧
  (∀ (w : Word) (i : Instr), decodeWord w = .instr i → i.wf = true) ∧
  (∀ (w : Word) (i : Instr), decodeWord w = .instr i → i ≠ .ecall → encode i = w) ∧
  (∃ w : Word, decodeWord w = .instr .ecall ∧ encode .ecall ≠ w)

/-- R53, R54, R56: which words are LUI, ADDI and ECALL, and their fields. -/
def Obligations.LuiAddiEcallWordsDecodeByTheirFields : Prop :=
  ∀ w : Word, ∃ rd rs1 : RegIdx, rd.val = (w.extractLsb' 7 5).toNat ∧ rs1.val = (w.extractLsb' 15 5).toNat ∧
    (w.extractLsb' 0 7 = 0b0110111#7 → decodeWord w = .instr (.lui rd (w.extractLsb' 12 20 ++ 0#12))) ∧
    (w.extractLsb' 0 7 = 0b0010011#7 → w.extractLsb' 12 3 = 0b000#3 →
      decodeWord w = .instr (.addi rd rs1 ((w.extractLsb' 20 12).signExtend 32))) ∧
    (w.extractLsb' 0 7 = 0b0010011#7 → w.extractLsb' 12 3 ≠ 0b000#3 → decodeWord w = .unrecognized) ∧
    (w.extractLsb' 0 7 = 0b1110011#7 → decodeWord w = .instr .ecall)

/-- R55: which words are ADD and SUB; any other under their opcode is UNRECOGNIZED. DERIVED: the field values are GK2's
and the whole-field match is D2's (log 7). -/
def Obligations.AddSubWordsDecodeByTheirFields : Prop :=
  ∀ w : Word, w.extractLsb' 0 7 = 0b0110011#7 → ∃ rd rs1 rs2 : RegIdx,
    rd.val = (w.extractLsb' 7 5).toNat ∧ rs1.val = (w.extractLsb' 15 5).toNat ∧ rs2.val = (w.extractLsb' 20 5).toNat ∧
    (w.extractLsb' 12 3 = 0b000#3 → w.extractLsb' 25 7 = 0b0000000#7 → decodeWord w = .instr (.add rd rs1 rs2)) ∧
    (w.extractLsb' 12 3 = 0b000#3 → w.extractLsb' 25 7 = 0b0100000#7 → decodeWord w = .instr (.sub rd rs1 rs2)) ∧
    (w.extractLsb' 12 3 ≠ 0b000#3 ∨ (w.extractLsb' 25 7 ≠ 0b0000000#7 ∧ w.extractLsb' 25 7 ≠ 0b0100000#7) →
      decodeWord w = .unrecognized)

/-- R52's opcode map: a decoded word matches its row under the row's mask, and exactly the words that match no row are
UNRECOGNIZED. DERIVED: the rows of ADD and SUB rest on GK2 (log 7). -/
def Obligations.MaskAndMatchRowsDecideTheVariant : Prop :=
  (∀ (w : Word) (i : Instr), decodeWord w = .instr i → w &&& i.rowMask = i.rowMatch) ∧
  (∀ w : Word, decodeWord w = .unrecognized ↔
    (w &&& 0x0000007F#32 ≠ 0x00000037#32 ∧ w &&& 0x0000707F#32 ≠ 0x00000013#32 ∧
     w &&& 0xFE00707F#32 ≠ 0x00000033#32 ∧ w &&& 0xFE00707F#32 ≠ 0x40000033#32 ∧
     w &&& 0x0000007F#32 ≠ 0x00000073#32))

/-- R49: the LUI immediate fills bits 31:12 and bits 11:0 are zero. -/
def Obligations.LuiImmediateIsTheTopTwentyBits : Prop :=
  ∀ (w : Word) (rd : RegIdx) (imm : Word), decodeWord w = .instr (.lui rd imm) →
    imm = w &&& 0xFFFFF000#32 ∧ imm = w.extractLsb' 12 20 ++ 0#12 ∧ imm = (w.extractLsb' 12 20).setWidth 32 <<< 12

/-- R50: the ADDI immediate is bits 31:20 read as a signed number, -2048 to 2047; its bits 31:11 all equal bit 31 of the
word. -/
def Obligations.AddiImmediateIsSignExtended : Prop :=
  ∀ (w : Word) (rd rs1 : RegIdx) (imm : Word), decodeWord w = .instr (.addi rd rs1 imm) →
    imm.toInt = (w.extractLsb' 20 12).toInt ∧ -2048 ≤ imm.toInt ∧ imm.toInt ≤ 2047 ∧
    imm.extractLsb' 0 12 = w.extractLsb' 20 12 ∧
    ∀ k, 11 ≤ k → k < 32 → imm.getLsbD k = w.getLsbD 31

/-! ### The register file -/

/-- R21: register 0 reads 0 before and after every instruction, whatever writes it. -/
def Obligations.RegisterZeroReadsZeroAroundEveryInstruction : Prop :=
  ∀ (i : Instr) (s t : State), exec i s = .next t →
    s.readReg 0 = 0#32 ∧ t.readReg 0 = 0#32 ∧ ∀ v, s.writeReg 0 v = s

/-- R20: a write replaces the value of a register 1 to 31 and no other; a write to register 0 does nothing. -/
def Obligations.WriteReplacesOneRegister : Prop :=
  (∀ (s : State) (r : RegIdx) (v : Word), r ≠ 0 →
    (s.writeReg r v).readReg r = v ∧ (∀ r', r' ≠ r → (s.writeReg r v).readReg r' = s.readReg r') ∧
    (s.writeReg r v).pc = s.pc ∧ (s.writeReg r v).status = s.status ∧ SameParameters s (s.writeReg r v)) ∧
  (∀ (s : State) (v : Word), s.writeReg 0 v = s)

/-! ### What each instruction does and leaves -/

/-- LUI completes in every state: the immediate is in the destination (when that is not register 0), the pc advances by
PC_UNIT, and every other register, the status, every byte of the image and PC_UNIT are unchanged (R71, R65). -/
def Obligations.LuiWritesTheImmediateAndNothingElse : Prop :=
  ∀ (rd : RegIdx) (imm : Word) (s : State), ∃ t, exec (.lui rd imm) s = .next t ∧
    (∀ r, t.readReg r = if r = rd ∧ r ≠ 0 then imm else s.readReg r) ∧
    t.pc = s.pc + (if s.pcUnit = .byte then 4#32 else 1#32) ∧ t.status = s.status ∧ SameParameters s t

/-- ADDI completes in every state: old x[rs1] plus the immediate, modulo 2^32; the rest as for LUI (R73, R64, R65). -/
def Obligations.AddiWritesTheSumAndNothingElse : Prop :=
  ∀ (rd rs1 : RegIdx) (imm : Word) (s : State), ∃ t, exec (.addi rd rs1 imm) s = .next t ∧
    (∀ r, t.readReg r = if r = rd ∧ r ≠ 0 then s.readReg rs1 + imm else s.readReg r) ∧
    t.pc = s.pc + (if s.pcUnit = .byte then 4#32 else 1#32) ∧ t.status = s.status ∧ SameParameters s t

/-- ADD completes in every state: old x[rs1] plus old x[rs2], modulo 2^32; the rest as for LUI (R75, R64, R65). -/
def Obligations.AddWritesTheSumAndNothingElse : Prop :=
  ∀ (rd rs1 rs2 : RegIdx) (s : State), ∃ t, exec (.add rd rs1 rs2) s = .next t ∧
    (∀ r, t.readReg r = if r = rd ∧ r ≠ 0 then s.readReg rs1 + s.readReg rs2 else s.readReg r) ∧
    t.pc = s.pc + (if s.pcUnit = .byte then 4#32 else 1#32) ∧ t.status = s.status ∧ SameParameters s t

/-- SUB completes in every state: old x[rs1] minus old x[rs2], modulo 2^32; the rest as for LUI (R76, R64, R65). -/
def Obligations.SubWritesTheDifferenceAndNothingElse : Prop :=
  ∀ (rd rs1 rs2 : RegIdx) (s : State), ∃ t, exec (.sub rd rs1 rs2) s = .next t ∧
    (∀ r, t.readReg r = if r = rd ∧ r ≠ 0 then s.readReg rs1 - s.readReg rs2 else s.readReg r) ∧
    t.pc = s.pc + (if s.pcUnit = .byte then 4#32 else 1#32) ∧ t.status = s.status ∧ SameParameters s t

/-- R66: ECALL completes in every state: HALTED, and every register, the pc, every byte of the image and PC_UNIT are
unchanged. -/
def Obligations.EcallHaltsAndChangesNothingElse : Prop :=
  ∀ s : State, ∃ t, exec .ecall s = .next t ∧ t.status = .halted ∧ t.pc = s.pc ∧
    (∀ r, t.readReg r = s.readReg r) ∧ SameParameters s t

/-- R58: LUI, ADDI, ADD and SUB with rd = 0 advance the pc and have no other effect. -/
def Obligations.RdZeroFormsOnlyAdvanceThePc : Prop :=
  ∀ (i : Instr) (s : State), i.dest = some 0 →
    exec i s = .next { s with pc := s.pc + (if s.pcUnit = .byte then 4#32 else 1#32) }

/-- R65: the pc advance is the same for LUI, ADDI, ADD and SUB, on any operands and with any destination, register 0
too; each changes its destination and the pc only (R64). -/
def Obligations.ArithmeticChangesOnlyDestinationAndPc : Prop :=
  ∀ (i : Instr) (rd : RegIdx) (s : State), i.dest = some rd → ∃ t, exec i s = .next t ∧
    (s.pcUnit = .byte → t.pc = s.pc + 4#32) ∧ (s.pcUnit = .word → t.pc = s.pc + 1#32) ∧
    (∀ r, r ≠ rd → t.readReg r = s.readReg r) ∧ t.status = s.status ∧
    (∀ a, t.mem.readByte a = s.mem.readByte a) ∧ t.mem.lenWords = s.mem.lenWords ∧ t.pcUnit = s.pcUnit

/-- R77's laws on the results: for patterns read as naturals, modulo 2^32; read as signed numbers, the same modulo 2^32. -/
def Obligations.ArithmeticIsModulo2ToThe32 : Prop :=
  ∀ (rd rs1 rs2 : RegIdx) (imm : Word) (s : State), rd ≠ 0 →
    (∃ t, exec (.add rd rs1 rs2) s = .next t ∧
      (t.readReg rd).toNat = ((s.readReg rs1).toNat + (s.readReg rs2).toNat) % 2 ^ 32 ∧
      (t.readReg rd).toInt = ((s.readReg rs1).toInt + (s.readReg rs2).toInt).bmod (2 ^ 32)) ∧
    (∃ t, exec (.sub rd rs1 rs2) s = .next t ∧
      (t.readReg rd).toNat = ((s.readReg rs1).toNat + 2 ^ 32 - (s.readReg rs2).toNat) % 2 ^ 32 ∧
      (t.readReg rd).toInt = ((s.readReg rs1).toInt - (s.readReg rs2).toInt).bmod (2 ^ 32)) ∧
    (∃ t, exec (.addi rd rs1 imm) s = .next t ∧
      (t.readReg rd).toNat = ((s.readReg rs1).toNat + imm.toNat) % 2 ^ 32 ∧
      (t.readReg rd).toInt = ((s.readReg rs1).toInt + imm.toInt).bmod (2 ^ 32))

/-- R74 (a) and (b): an ADDI is undone by the ADDI of the negated immediate, for immediates -2047 to 2047; adding the
immediate of -k subtracts k. -/
def Obligations.AddiOfTheNegatedImmediateUndoesIt : Prop :=
  ∀ (rd rs1 : RegIdx) (k : Int) (s t u : State), rd ≠ 0 → -2047 ≤ k → k ≤ 2047 →
    exec (.addi rd rs1 (BitVec.ofInt 32 k)) s = .next t → exec (.addi rd rd (BitVec.ofInt 32 (-k))) t = .next u →
    u.readReg rd = s.readReg rs1 ∧ t.readReg rd = s.readReg rs1 - BitVec.ofInt 32 (-k)

/-- R72: LUI of `(c + 0x800)[31:12]` and then ADDI of `sext_12(c[11:0])` builds any 32-bit constant `c`; both are
well-formed. -/
def Obligations.LuiThenAddiBuildsAnyConstant : Prop :=
  ∀ (c : Word) (rd : RegIdx) (s : State), rd ≠ 0 →
    ∃ (imm low : Word) (t u : State),
      imm = (c + 0x800#32).extractLsb' 12 20 ++ 0#12 ∧ low = (c.extractLsb' 0 12).signExtend 32 ∧
      (Instr.lui rd imm).wf = true ∧ (Instr.addi rd rd low).wf = true ∧
      exec (.lui rd imm) s = .next t ∧ exec (.addi rd rd low) t = .next u ∧ u.readReg rd = c

/-- R72, R74 (c): the result depends on the source registers alone (for LUI on nothing), not on the pc, the status, the
image or any other register. -/
def Obligations.ResultDependsOnSourcesAlone : Prop :=
  ∀ (i : Instr) (rd : RegIdx) (s s' t t' : State), i.dest = some rd → (∀ r ∈ i.sources, s.readReg r = s'.readReg r) →
    exec i s = .next t → exec i s' = .next t' → t.readReg rd = t'.readReg rd

/-! ### Memory, the load and the fetch -/

/-- R36: the translator under both conventions. -/
def Obligations.TranslatorFollowsPcUnit : Prop :=
  ∀ pc : Word, wordIndex .byte pc = pc.toNat / 4 ∧ wordIndex .word pc = pc.toNat ∧
    byteOffset .word pc = 4 * pc.toNat ∧ byteOffset .byte pc = 4 * (pc.toNat / 4) ∧
    (pc.toNat % 4 = 0 → byteOffset .byte pc = pc.toNat)

/-- R37: the bounds check, under either convention, and its equivalents for an aligned pc under PC_UNIT = 4. -/
def Obligations.BoundsCheckComparesTheWordIndex : Prop :=
  ∀ (m : Memory) (pc : Word),
    (inBounds m .word pc = true ↔ pc.toNat < m.lenWords.val) ∧
    (inBounds m .byte pc = true ↔ pc.toNat / 4 < m.lenWords.val) ∧
    (pc.toNat % 4 = 0 → (inBounds m .byte pc = true ↔ pc.toNat < m.lenBytes) ∧
      (inBounds m .byte pc = true ↔ pc.toNat + 3 < m.lenBytes)) ∧
    (∀ u, inBounds m u pc = false ↔ fetchWord m u pc = none)

/-- R38: in bounds, the fetch is the word at the byte offset of the pc and cannot fail. -/
def Obligations.FetchReadsTheWordAtTheByteOffset : Prop :=
  ∀ (m : Memory) (u : PcUnit) (pc : Word), inBounds m u pc = true →
    ∃ w, fetchWord m u pc = some w ∧ m.readWord (4 * (pc.toNat / u.toNat)) = some w

/-- R33: the word at an aligned offset of a loaded image is little-endian. -/
def Obligations.LoadedWordsAreLittleEndian : Prop :=
  ∀ (bytes : List Byte) (m : Memory) (a : Nat), Memory.load bytes = .ok m → a % 4 = 0 → a + 3 < bytes.length →
    ∃ (w : Word) (b0 b1 b2 b3 : Byte), m.readWord a = some w ∧
      bytes[a]? = some b0 ∧ bytes[a + 1]? = some b1 ∧ bytes[a + 2]? = some b2 ∧ bytes[a + 3]? = some b3 ∧
      w.toNat = b0.toNat + 2 ^ 8 * b1.toNat + 2 ^ 16 * b2.toNat + 2 ^ 24 * b3.toNat

/-- R35: word i of the image is at pc = i * PC_UNIT; every pc from LEN_WORDS * PC_UNIT upward is outside. -/
def Obligations.WordIsAtItsIndexTimesPcUnit : Prop :=
  ∀ (m : Memory) (u : PcUnit),
    (∀ i, i < m.lenWords.val → fetchWord m u (BitVec.ofNat 32 (i * u.toNat)) = m.readWord (4 * i) ∧
      (m.readWord (4 * i)).isSome = true) ∧
    (∀ pc : Word, m.lenWords.val * u.toNat ≤ pc.toNat → fetchWord m u pc = none)

/-- R31: an image whose length is no multiple of 4 fails to load, with the misaligned-image condition, and no run of it
halts with any result. -/
def Obligations.MisalignedImageNeverLoads : Prop :=
  ∀ bytes : List Byte, (Memory.load bytes = .misalignedImage ↔ bytes.length % 4 ≠ 0) ∧
    (bytes.length % 4 ≠ 0 → ∀ u P, ¬ HaltsWith u bytes P)

/-- R30 with D3's bound (log 3): an image of whole words within the bound loads, with its length. -/
def Obligations.WholeWordImageLoadsWithinTheBound : Prop :=
  ∀ bytes : List Byte, bytes.length % 4 = 0 →
    (bytes.length / 4 ≤ 2 ^ 30 - 1 → ∃ m, Memory.load bytes = .ok m ∧ m.lenBytes = bytes.length ∧ m.wf = true) ∧
    (2 ^ 30 - 1 < bytes.length / 4 → Memory.load bytes = .imageTooLong)

/-- The memory's canonical form (log 2): memories of one length that read alike at every offset are the same data. -/
def Obligations.MemoriesThatReadAlikeAreEqual : Prop :=
  ∀ m m' : Memory, m.wf = true → m'.wf = true → m.lenWords = m'.lenWords →
    (∀ a, m.readByte a = m'.readByte a) → m = m'

/-- How an instruction is placed for the next step (log 2): where the pc is aligned and not past the longest image, the
next step is the instruction's meaning, and the registers, the pc and the bytes of the other words are kept. -/
def Obligations.WithFetchWordIsRunNext : Prop :=
  ∀ (s : State) (w : Nat) (i : Instr), s.mem.wf = true → pcAligned s.pcUnit s.pc = true →
    wordIndex s.pcUnit s.pc < 2 ^ 30 - 1 → decodeWord (BitVec.ofNat 32 w) = .instr i →
    step (s.withFetchWord 32 w) = exec i (s.withFetchWord 32 w) ∧
    (∀ r, (s.withFetchWord 32 w).readReg r = s.readReg r) ∧ (s.withFetchWord 32 w).pc = s.pc ∧
    (∀ a, a < s.mem.lenBytes → a / 4 ≠ wordIndex s.pcUnit s.pc → (s.withFetchWord 32 w).mem.readByte a = s.mem.readByte a)

/-! ### The cycle -/

/-- A step runs the decoded instruction (R61, R62): nothing is added around the meaning. -/
def Obligations.StepRunsTheDecodedInstruction : Prop :=
  ∀ (s : State) (w : Word) (i : Instr), s.status = .running → pcAligned s.pcUnit s.pc = true → s.fetch = some w →
    decodeWord w = .instr i → step s = exec i s

/-- R71: one cycle on any word whose low 7 bits are 0110111. -/
def Obligations.CycleOnALuiWord : Prop :=
  ∀ (s : State) (w : Word), s.status = .running → pcAligned s.pcUnit s.pc = true → s.fetch = some w →
    w.extractLsb' 0 7 = 0b0110111#7 →
    ∃ t, step s = .next t ∧
      (∀ r, t.readReg r = if r.val = (w.extractLsb' 7 5).toNat ∧ r ≠ 0 then w &&& 0xFFFFF000#32 else s.readReg r) ∧
      t.pc = s.pc + (if s.pcUnit = .byte then 4#32 else 1#32) ∧ t.status = .running ∧ SameParameters s t

/-- R73: one cycle on any word with opcode 0010011 and funct3 000. -/
def Obligations.CycleOnAnAddiWord : Prop :=
  ∀ (s : State) (w : Word) (rs1 : RegIdx), s.status = .running → pcAligned s.pcUnit s.pc = true → s.fetch = some w →
    w.extractLsb' 0 7 = 0b0010011#7 → w.extractLsb' 12 3 = 0b000#3 → rs1.val = (w.extractLsb' 15 5).toNat →
    ∃ t, step s = .next t ∧
      (∀ r, t.readReg r = if r.val = (w.extractLsb' 7 5).toNat ∧ r ≠ 0
        then s.readReg rs1 + (w.extractLsb' 20 12).signExtend 32 else s.readReg r) ∧
      t.pc = s.pc + (if s.pcUnit = .byte then 4#32 else 1#32) ∧ t.status = .running ∧ SameParameters s t

/-- R75, R76: one cycle on an ADD or SUB word. DERIVED: the funct values are GK2's (log 7). -/
def Obligations.CycleOnAnAddOrSubWord : Prop :=
  ∀ (s : State) (w : Word) (rs1 rs2 : RegIdx), s.status = .running → pcAligned s.pcUnit s.pc = true →
    s.fetch = some w → w.extractLsb' 0 7 = 0b0110011#7 → w.extractLsb' 12 3 = 0b000#3 →
    w.extractLsb' 25 7 = 0b0000000#7 ∨ w.extractLsb' 25 7 = 0b0100000#7 →
    rs1.val = (w.extractLsb' 15 5).toNat → rs2.val = (w.extractLsb' 20 5).toNat →
    ∃ t, step s = .next t ∧
      (∀ r, t.readReg r = if r.val = (w.extractLsb' 7 5).toNat ∧ r ≠ 0
        then (if w.getLsbD 30 then s.readReg rs1 - s.readReg rs2 else s.readReg rs1 + s.readReg rs2)
        else s.readReg r) ∧
      t.pc = s.pc + (if s.pcUnit = .byte then 4#32 else 1#32) ∧ t.status = .running ∧ SameParameters s t

/-- R78, R66: one cycle on ANY word whose low 7 bits are 1110011 halts, with every register and the pc as they were, and
the run is over. -/
def Obligations.CycleOnAnEcallWordHalts : Prop :=
  ∀ (s : State) (w : Word), s.status = .running → pcAligned s.pcUnit s.pc = true → s.fetch = some w →
    w.extractLsb' 0 7 = 0b1110011#7 →
    ∃ t, step s = .next t ∧ t.status = .halted ∧ t.pc = s.pc ∧ (∀ r, t.readReg r = s.readReg r) ∧ SameParameters s t ∧
      ∀ k, run k t = .next t

/-- R80, R85: a pc outside the image always gives FAULT_FETCH_OOB with that pc, whatever the image holds; a word inside
it that is UNRECOGNIZED gives FAULT_UNRECOGNIZED with the word and its pc (R81). -/
def Obligations.FaultsAreTakenInTheOrderOfTheCycle : Prop :=
  ∀ s : State, s.status = .running → pcAligned s.pcUnit s.pc = true →
    (s.mem.lenWords.val ≤ s.pc.toNat / s.pcUnit.toNat →
      ∃ t, step s = .next t ∧ t.status = .faultFetchOob s.pc ∧
        t.status.faultInfo = some (.fetchOutOfBounds s.pc) ∧ SameParameters s t) ∧
    (∀ w, s.pc.toNat / s.pcUnit.toNat < s.mem.lenWords.val → s.fetch = some w → decodeWord w = .unrecognized →
      ∃ t, step s = .next t ∧ t.status = .faultUnrecognized w s.pc ∧
        t.status.faultInfo = some (.unrecognizedInstruction w s.pc) ∧ SameParameters s t)

/-- The other way round (R25, R85): the status after a step says why it is so. -/
def Obligations.StatusAfterAStepSaysWhy : Prop :=
  ∀ s t : State, step s = .next t → s.status = .running ∧
    (t.status = .running → ∃ w i rd, s.fetch = some w ∧ decodeWord w = .instr i ∧ i.dest = some rd) ∧
    (t.status = .halted → ∃ w, s.fetch = some w ∧ w.extractLsb' 0 7 = 0b1110011#7) ∧
    (∀ a, t.status = .faultFetchOob a → a = s.pc ∧ inBounds s.mem s.pcUnit s.pc = false) ∧
    (∀ w p, t.status = .faultUnrecognized w p → p = s.pc ∧ s.fetch = some w ∧ decodeWord w = .unrecognized)

/-- R62: the step answers a next state in every RUNNING state with an aligned pc (the premise of R40). -/
def Obligations.StepIsTotalOnRunningStates : Prop :=
  ∀ s : State, s.status = .running → pcAligned s.pcUnit s.pc = true → ∃ t, step s = .next t

/-- R67, D7: a terminal state has no successor; that the step says so as a fault of its own name is the model's choice
(log 5). -/
def Obligations.TerminalStatesHaveNoStep : Prop :=
  ∀ s : State, s.status ≠ .running → step s = .fault (.terminated s.status) ∧ ∀ k, run k s = .next s

/-- R40, D8 (log 4): a pc that is no multiple of 4 under PC_UNIT = 4 is refused, and that is the only refusal. -/
def Obligations.OnlyAMisalignedPcIsRefused : Prop :=
  (∀ s : State, s.status = .running → s.pcUnit = .byte → s.pc.toNat % 4 ≠ 0 → step s = .refused (.misalignedPc s.pc)) ∧
  (∀ (s : State) (r : Refusal), step s = .refused r →
    s.status = .running ∧ s.pcUnit = .byte ∧ s.pc.toNat % 4 ≠ 0 ∧ r = .misalignedPc s.pc)

/-- R44: no step changes the image, so every fetch sees it as loaded. -/
def Obligations.EveryFetchSeesTheImageAsLoaded : Prop :=
  ∀ (k : Nat) (s t : State), run k s = .next t →
    SameParameters s t ∧ ∀ pc, fetchWord t.mem t.pcUnit pc = fetchWord s.mem s.pcUnit pc

/-! ### Reset, invariant, runs -/

/-- R28: at reset, and at the start of a run under either PC_UNIT, every register and the pc are zero, the status is
RUNNING and there is no fault information. (The image and PC_UNIT that State.reset itself holds are the model's: logs 1, 2.) -/
def Obligations.ResetStateIsAllZeroAndRunning : Prop :=
  ((∀ r, State.reset.readReg r = 0#32) ∧ State.reset.pc = 0#32 ∧ State.reset.status = .running ∧
    State.reset.status.faultInfo = none) ∧
  ∀ (u : PcUnit) (m : Memory), (∀ r, (State.start u m).readReg r = 0#32) ∧ (State.start u m).pc = 0#32 ∧
    (State.start u m).status = .running ∧ (State.start u m).status.faultInfo = none ∧
    (State.start u m).mem = m ∧ (State.start u m).pcUnit = u

/-- The invariant holds at reset and at the start of every loaded image's run. -/
def Obligations.InvHoldsAtResetAndAtEveryStart : Prop :=
  State.reset.Inv ∧ ∀ (u : PcUnit) (bytes : List Byte) (m : Memory), Memory.load bytes = .ok m → (State.start u m).Inv

/-- Every step keeps the invariant: canonical memory, an aligned pc within LEN_WORDS * PC_UNIT, and a terminal status that
tells the truth about the image. -/
def Obligations.EveryStepKeepsInv : Prop :=
  ∀ s t : State, s.Inv → step s = .next t → t.Inv

/-- R23, R24, R69: from a state of the invariant, a step that goes on moves the pc up by exactly PC_UNIT, without
wrapping, to at most the end of the image. -/
def Obligations.ThePcOnlyMovesUpByOneUnit : Prop :=
  ∀ s t : State, s.Inv → step s = .next t → t.status = .running →
    t.pc.toNat = s.pc.toNat + s.pcUnit.toNat ∧ t.pc.toNat ≤ s.mem.lenWords.val * s.pcUnit.toNat

/-- R23, R92: after k retired instructions from reset the pc is k * PC_UNIT, and k is at most LEN_WORDS. -/
def Obligations.ThePcCountsRetiredInstructions : Prop :=
  ∀ (u : PcUnit) (bytes : List Byte) (m : Memory) (k : Nat) (t : State), Memory.load bytes = .ok m →
    run k (State.start u m) = .next t → t.status = .running → t.pc.toNat = k * u.toNat ∧ k ≤ m.lenWords.val

/-- R68: from every RUNNING state of the invariant the run is over within LEN_WORDS + 1 cycles. -/
def Obligations.EveryRunEndsWithinLenWordsPlusOneCycles : Prop :=
  ∀ s : State, s.Inv → s.status = .running →
    ∃ t, run (s.mem.lenWords.val + 1) s = .next t ∧ t.status ≠ .running ∧ t.Inv

/-- R15, R68, R80, R81: every loaded image's run has an outcome, and the outcome tells the truth: a halt is at an ECALL
word, an out-of-bounds fetch is at the end of the image, an unrecognized word is the one at its pc. -/
def Obligations.EveryLoadedImageHasATrueOutcome : Prop :=
  ∀ (u : PcUnit) (bytes : List Byte) (m : Memory), Memory.load bytes = .ok m →
    ∃ o, execute (State.start u m) = some o ∧
      (∀ q, o = .halted q → q.x[0] = 0#32 ∧ ∃ w, fetchWord m u q.pc = some w ∧ w.extractLsb' 0 7 = 0b1110011#7) ∧
      (∀ a, o = .faulted (.fetchOutOfBounds a) → a.toNat = m.lenWords.val * u.toNat) ∧
      (∀ w p, o = .faulted (.unrecognizedInstruction w p) →
        fetchWord m u p = some w ∧ decodeWord w = .unrecognized)

/-- R9: PC_UNIT affects only the numeric value of the pc, never which instructions run or any register. -/
def Obligations.PcUnitChangesOnlyPcValues : Prop :=
  ∀ m : Memory, ∃ a b, execute (State.start .byte m) = some a ∧ execute (State.start .word m) = some b ∧
    SameOutcomeUpToPcUnit a b

/-- R78's corner case for bytes behind the whole image: whatever is appended to an image that halts changes nothing. -/
def Obligations.BytesAppendedToAHaltingImageMayBeAnything : Prop :=
  ∀ (u : PcUnit) (bytes extra : List Byte) (P : Snapshot → Prop), HaltsWith u bytes P →
    (bytes ++ extra).length % 4 = 0 → (bytes ++ extra).length / 4 ≤ 2 ^ 30 - 1 → HaltsWith u (bytes ++ extra) P

/-- R32 (D4, log 9): the empty image loads and its run faults in the first cycle at address 0. -/
def Obligations.TheEmptyImageFaultsAtZero : Prop :=
  ∀ u : PcUnit, ∃ m t, Memory.load [] = .ok m ∧ step (State.start u m) = .next t ∧ t.status = .faultFetchOob 0#32 ∧
    execute (State.start u m) = some (.faulted (.fetchOutOfBounds 0#32))

/-- The snapshot shows all 32 registers and the pc of a halted run (R16), and there is none after a fault (R16, R87).
DERIVED: that a RUNNING state has none is the model's DESIGN CHOICE of log 11 (R70 and D10 promise nothing there). -/
def Obligations.SnapshotOnlyAfterAHalt : Prop :=
  ∀ s : State,
    (s.status = .halted → ∃ q, s.snapshot = some q ∧ q.pc = s.pc ∧ ∀ r : RegIdx, q.x[r.val] = s.readReg r) ∧
    (s.status ≠ .halted → s.snapshot = none)

/-- The outcome the host is given is the status's own, a halt with its snapshot and a fault with its information (R15,
R25, R97). DERIVED: that there is none exactly while RUNNING is the model's DESIGN CHOICE of log 11. -/
def Obligations.OutcomeIsTheStatusWithItsInformation : Prop :=
  ∀ s : State, (s.outcome = none ↔ s.status = .running) ∧
    (∀ f, s.outcome = some (.faulted f) ↔ s.status.faultInfo = some f) ∧
    (∀ q, s.outcome = some (.halted q) ↔ s.snapshot = some q)

/-- R78's corner case whole: the words behind the ECALL that halts are never fetched and may be anything. Of two images
that begin with the same bytes `pre`, if the first halts at a word of `pre`, the second halts with the same result. -/
def Obligations.WordsBehindTheHaltingEcallMayBeAnything : Prop :=
  ∀ (u : PcUnit) (pre tail tail' : List Byte) (P : Snapshot → Prop),
    HaltsWith u (pre ++ tail) (fun q => 4 * (q.pc.toNat / u.toNat) + 4 ≤ pre.length ∧ P q) →
    (pre ++ tail').length % 4 = 0 → (pre ++ tail').length / 4 ≤ 2 ^ 30 - 1 → HaltsWith u (pre ++ tail') P
end

