-- ==== Sys2Proof/Laws/Decode.lean ====
section
/-! SUPPORT. The fields of an encoded word, the immediates, and the cases of the Decoder. -/

namespace Sys2Proof

/-! ### Register fields -/

@[simp] theorem regOfBits_bitsOfReg (r : RegIdx) : regOfBits (bitsOfReg r) = r := by
  apply Fin.ext
  have := r.isLt
  simp [regOfBits, bitsOfReg]

@[simp] theorem bitsOfReg_regOfBits (b : BitVec 5) : bitsOfReg (regOfBits b) = b := by
  apply BitVec.eq_of_toNat_eq
  have := b.isLt
  simp [regOfBits, bitsOfReg]

/-! ### Fields of a concatenation: the low part, and what lies above it -/

/-- The low `n` bits of a concatenation are its low part. -/
theorem extract_low {m n : Nat} (a : BitVec m) (b : BitVec n) : (a ++ b).extractLsb' 0 n = b := by
  apply BitVec.eq_of_getLsbD_eq
  intro i hi
  rw [BitVec.getLsbD_extractLsb', BitVec.getLsbD_append]
  simp [hi]

/-- A field above the low part is a field of the high part. -/
theorem extract_high {m n : Nat} (a : BitVec m) (b : BitVec n) (k len : Nat) :
    (a ++ b).extractLsb' (n + k) len = a.extractLsb' k len := by
  apply BitVec.eq_of_getLsbD_eq
  intro i hi
  rw [BitVec.getLsbD_extractLsb', BitVec.getLsbD_append, BitVec.getLsbD_extractLsb']
  have h1 : ¬ n + k + i < n := by omega
  have h2 : n + k + i - n = k + i := by omega
  simp [h1, h2]

/-- A bit vector is the concatenation of two adjacent fields that cover it. -/
theorem extract_append_extract {w n m : Nat} (x : BitVec w) (h : w = m + n) :
    x.extractLsb' n m ++ x.extractLsb' 0 n = x.setWidth (m + n) := by
  subst h
  apply BitVec.eq_of_getLsbD_eq
  intro i hi
  rw [BitVec.getLsbD_append, BitVec.getLsbD_extractLsb', BitVec.getLsbD_extractLsb']
  by_cases hn : i < n
  · simp [hn, hi]
  · have h1 : i - n < m := by omega
    have h2 : n + (i - n) = i := by omega
    simp [hn, h1, h2, hi]

/-! ### The fields of the formats (R48) -/

section UFormat
variable (i : BitVec 20) (d : BitVec 5) (o : BitVec 7)

theorem uFormat_opcode : opcodeField (i ++ d ++ o) = o := extract_low _ _
theorem uFormat_rd : (i ++ d ++ o : Word).extractLsb' 7 5 = d := (extract_high (i ++ d) o 0 5).trans (extract_low i d)
theorem uFormat_imm : (i ++ d ++ o : Word).extractLsb' 12 20 = i := by
  refine (extract_high (i ++ d) o 5 20).trans ((extract_high i d 0 20).trans ?_)
  simp

end UFormat

section IFormat
variable (i : BitVec 12) (s : BitVec 5) (f : BitVec 3) (d : BitVec 5) (o : BitVec 7)

theorem iFormat_opcode : opcodeField (i ++ s ++ f ++ d ++ o) = o := extract_low _ _
theorem iFormat_rd : (i ++ s ++ f ++ d ++ o : Word).extractLsb' 7 5 = d :=
  (extract_high (i ++ s ++ f ++ d) o 0 5).trans (extract_low _ d)
theorem iFormat_funct3 : funct3Field (i ++ s ++ f ++ d ++ o) = f :=
  (extract_high (i ++ s ++ f ++ d) o 5 3).trans ((extract_high (i ++ s ++ f) d 0 3).trans (extract_low _ f))
theorem iFormat_rs1 : (i ++ s ++ f ++ d ++ o : Word).extractLsb' 15 5 = s :=
  (extract_high (i ++ s ++ f ++ d) o 8 5).trans ((extract_high (i ++ s ++ f) d 3 5).trans
    ((extract_high (i ++ s) f 0 5).trans (extract_low _ s)))
theorem iFormat_imm : (i ++ s ++ f ++ d ++ o : Word).extractLsb' 20 12 = i := by
  refine (extract_high (i ++ s ++ f ++ d) o 13 12).trans ((extract_high (i ++ s ++ f) d 8 12).trans
    ((extract_high (i ++ s) f 5 12).trans ((extract_high i s 0 12).trans ?_)))
  simp

end IFormat

section RFormat
variable (g : BitVec 7) (t s : BitVec 5) (f : BitVec 3) (d : BitVec 5) (o : BitVec 7)

theorem rFormat_opcode : opcodeField (g ++ t ++ s ++ f ++ d ++ o) = o := extract_low _ _
theorem rFormat_rd : (g ++ t ++ s ++ f ++ d ++ o : Word).extractLsb' 7 5 = d :=
  (extract_high (g ++ t ++ s ++ f ++ d) o 0 5).trans (extract_low _ d)
theorem rFormat_funct3 : funct3Field (g ++ t ++ s ++ f ++ d ++ o) = f :=
  (extract_high (g ++ t ++ s ++ f ++ d) o 5 3).trans ((extract_high (g ++ t ++ s ++ f) d 0 3).trans (extract_low _ f))
theorem rFormat_rs1 : (g ++ t ++ s ++ f ++ d ++ o : Word).extractLsb' 15 5 = s :=
  (extract_high (g ++ t ++ s ++ f ++ d) o 8 5).trans ((extract_high (g ++ t ++ s ++ f) d 3 5).trans
    ((extract_high (g ++ t ++ s) f 0 5).trans (extract_low _ s)))
theorem rFormat_rs2 : (g ++ t ++ s ++ f ++ d ++ o : Word).extractLsb' 20 5 = t :=
  (extract_high (g ++ t ++ s ++ f ++ d) o 13 5).trans ((extract_high (g ++ t ++ s ++ f) d 8 5).trans
    ((extract_high (g ++ t ++ s) f 5 5).trans ((extract_high (g ++ t) s 0 5).trans (extract_low _ t))))
theorem rFormat_funct7 : funct7Field (g ++ t ++ s ++ f ++ d ++ o) = g := by
  refine (extract_high (g ++ t ++ s ++ f ++ d) o 18 7).trans ((extract_high (g ++ t ++ s ++ f) d 13 7).trans
    ((extract_high (g ++ t ++ s) f 10 7).trans ((extract_high (g ++ t) s 5 7).trans ((extract_high g t 0 7).trans ?_))))
  simp

end RFormat

/-! ### The masks of the opcode map (R52): what of a word each keeps -/

/-- Bit `i` of a concatenation whose low part is `n` bits wide. -/
theorem getLsbD_append_of {m n : Nat} (a : BitVec m) (b : BitVec n) (i : Nat) :
    (a ++ b).getLsbD i = if i < n then b.getLsbD i else a.getLsbD (i - n) := by
  rw [BitVec.getLsbD_append]

/-- The mask of LUI and ECALL keeps the opcode. -/
theorem and_opcodeMask (w : Word) : w &&& 0x0000007F#32 = 0#25 ++ opcodeField w := by
  apply BitVec.eq_of_getLsbD_eq
  intro i hi
  rw [BitVec.getLsbD_and, getLsbD_append_of]
  unfold opcodeField
  rw [BitVec.getLsbD_extractLsb']
  interval_cases i <;> simp

/-- The mask of ADDI keeps the opcode and funct3. -/
theorem and_funct3Mask (w : Word) : w &&& 0x0000707F#32 = 0#17 ++ funct3Field w ++ 0#5 ++ opcodeField w := by
  apply BitVec.eq_of_getLsbD_eq
  intro i hi
  rw [BitVec.getLsbD_and, getLsbD_append_of, getLsbD_append_of, getLsbD_append_of]
  unfold opcodeField funct3Field
  rw [BitVec.getLsbD_extractLsb', BitVec.getLsbD_extractLsb']
  interval_cases i <;> simp

/-- The mask of ADD and SUB keeps the opcode, funct3 and funct7. -/
theorem and_funct7Mask (w : Word) :
    w &&& 0xFE00707F#32 = funct7Field w ++ 0#10 ++ funct3Field w ++ 0#5 ++ opcodeField w := by
  apply BitVec.eq_of_getLsbD_eq
  intro i hi
  rw [BitVec.getLsbD_and, getLsbD_append_of, getLsbD_append_of, getLsbD_append_of, getLsbD_append_of]
  unfold opcodeField funct3Field funct7Field
  rw [BitVec.getLsbD_extractLsb', BitVec.getLsbD_extractLsb', BitVec.getLsbD_extractLsb']
  interval_cases i <;> simp

/-! ### The Decoder's cases -/

/-- What a decoded instruction says of its word (R52), and its operands. -/
theorem decodeWord_instr_cases {w : Word} {i : Instr} (h : decodeWord w = .instr i) :
    (opcodeField w = opLui ∧ i = .lui (rdField w) (immU w)) ∨
    (opcodeField w = opImm ∧ funct3Field w = funct3Add ∧ i = .addi (rdField w) (rs1Field w) (immI w)) ∨
    (opcodeField w = opReg ∧ funct3Field w = funct3Add ∧ funct7Field w = funct7Add ∧
      i = .add (rdField w) (rs1Field w) (rs2Field w)) ∨
    (opcodeField w = opReg ∧ funct3Field w = funct3Add ∧ funct7Field w = funct7Sub ∧
      i = .sub (rdField w) (rs1Field w) (rs2Field w)) ∨
    (opcodeField w = opSystem ∧ i = .ecall) := by
  unfold decodeWord at h
  split at h
  · next h1 => cases h; exact .inl ⟨h1, rfl⟩
  split at h
  · next _ h1 => cases h; exact .inr (.inl ⟨h1.1, h1.2, rfl⟩)
  split at h
  · next _ _ h1 => cases h; exact .inr (.inr (.inl ⟨h1.1, h1.2.1, h1.2.2, rfl⟩))
  split at h
  · next _ _ _ h1 => cases h; exact .inr (.inr (.inr (.inl ⟨h1.1, h1.2.1, h1.2.2, rfl⟩)))
  split at h
  · next _ _ _ _ h1 => cases h; exact .inr (.inr (.inr (.inr ⟨h1, rfl⟩)))
  · cases h

/-- The four opcodes differ, and so do ADD's and SUB's funct7: the Decoder's conditions exclude each other (R52). -/
theorem opcodes_differ : opImm ≠ opLui ∧ opReg ≠ opLui ∧ opReg ≠ opImm ∧ opSystem ≠ opLui ∧ opSystem ≠ opImm ∧
    opSystem ≠ opReg ∧ funct7Sub ≠ funct7Add := by decide

theorem decodeWord_lui {w : Word} (h : opcodeField w = opLui) : decodeWord w = .instr (.lui (rdField w) (immU w)) := by
  simp [decodeWord, h]

theorem decodeWord_addi {w : Word} (h : opcodeField w = opImm) (h3 : funct3Field w = funct3Add) :
    decodeWord w = .instr (.addi (rdField w) (rs1Field w) (immI w)) := by
  simp [decodeWord, h, h3, opcodes_differ]

theorem decodeWord_add {w : Word} (h : opcodeField w = opReg) (h3 : funct3Field w = funct3Add)
    (h7 : funct7Field w = funct7Add) : decodeWord w = .instr (.add (rdField w) (rs1Field w) (rs2Field w)) := by
  simp [decodeWord, h, h3, h7, opcodes_differ]

theorem decodeWord_sub {w : Word} (h : opcodeField w = opReg) (h3 : funct3Field w = funct3Add)
    (h7 : funct7Field w = funct7Sub) : decodeWord w = .instr (.sub (rdField w) (rs1Field w) (rs2Field w)) := by
  simp [decodeWord, h, h3, h7, opcodes_differ]

theorem decodeWord_ecall {w : Word} (h : opcodeField w = opSystem) : decodeWord w = .instr .ecall := by
  simp [decodeWord, h, opcodes_differ]

end Sys2Proof
end

