-- ==== Sys2Proof/Laws/Memory.lean ====
section
/-! SUPPORT. The instruction memory: every operation keeps the canonical form; what a read gives after a load and after a
word is placed; the fetch. -/

namespace Sys2Proof.Machine

/-! ### Canonical form -/

/-- Canonical cells stay canonical under a lower lower bound and a higher upper bound. -/
theorem cellsCanonical_mono {lo lo' hi hi' : Nat} (hlo : lo' ≤ lo) (hhi : hi ≤ hi') :
    ∀ {cells : List Host.Cell}, cellsCanonical lo hi cells = true → cellsCanonical lo' hi' cells = true
  | [], _ => rfl
  | (a, b) :: rest, h => by
    simp only [cellsCanonical, Bool.and_eq_true, decide_eq_true_eq] at h ⊢
    exact ⟨⟨⟨by omega, by omega⟩, h.1.2⟩, cellsCanonical_mono (Nat.le_refl _) hhi h.2⟩

/-- Loading writes canonical cells. -/
theorem cellsOfBytes_canonical : ∀ (bytes : List Byte) (a : Nat),
    cellsCanonical a (a + bytes.length) (cellsOfBytes a bytes) = true
  | [], _ => rfl
  | b :: bs, a => by
    have ih := cellsOfBytes_canonical bs (a + 1)
    have e : a + 1 + bs.length = a + (b :: bs).length := by simp; omega
    rw [e] at ih
    unfold cellsOfBytes
    split
    · exact cellsCanonical_mono (Nat.le_succ a) (Nat.le_refl _) ih
    · next hb =>
      simp only [cellsCanonical, Bool.and_eq_true, decide_eq_true_eq, bne_iff_ne]
      exact ⟨⟨⟨Nat.le_refl _, by simp⟩, hb⟩, ih⟩

/-- Putting a byte keeps the cells canonical. -/
theorem putCell_canonical {a hi : Nat} (b : Byte) (ha : a < hi) :
    ∀ {cells : List Host.Cell} {lo : Nat}, lo ≤ a → cellsCanonical lo hi cells = true →
      cellsCanonical lo hi (putCell a b cells) = true
  | [], lo, hlo, _ => by
    unfold putCell
    split
    · rfl
    · next hb => simp [cellsCanonical, hb, hlo, ha]
  | (a', b') :: rest, lo, hlo, h => by
    simp only [cellsCanonical, Bool.and_eq_true, decide_eq_true_eq] at h
    obtain ⟨⟨⟨h1, h2⟩, h3⟩, h4⟩ := h
    unfold putCell
    split
    · next hlt =>
      split
      · simp [cellsCanonical, h1, h2, h3, h4]
      · next hb =>
        have : a + 1 ≤ a' := hlt
        simp_all [cellsCanonical]
    · split
      · next heq =>
        subst heq
        split
        · exact cellsCanonical_mono (by omega) (Nat.le_refl _) h4
        · next hb => simp [cellsCanonical, hb, hlo, ha, h4]
      · have ih := putCell_canonical b ha (cells := rest) (lo := a' + 1) (by omega) h4
        simp [cellsCanonical, h1, h2, h3, ih]

theorem putWordCells_canonical {a lo hi : Nat} (w : Word) {cells : List Host.Cell} (hlo : lo ≤ a) (hhi : a + 3 < hi)
    (h : cellsCanonical lo hi cells = true) : cellsCanonical lo hi (putWordCells a w cells) = true := by
  unfold putWordCells
  exact putCell_canonical _ (by omega) (by omega) (putCell_canonical _ (by omega) (by omega)
    (putCell_canonical _ (by omega) (by omega) (putCell_canonical _ (by omega) hlo h)))

/-- Every memory operation keeps the canonical form: the load makes it. -/
theorem load_wf {bytes : List Byte} {m : Memory} (h : Memory.load bytes = .ok m) : m.wf = true := by
  unfold Memory.load at h
  split at h
  · next h4 =>
    split at h
    · cases h
      have := cellsOfBytes_canonical bytes 0
      simpa [Memory.wf, Memory.lenBytes, Nat.mul_div_cancel' (Nat.dvd_of_mod_eq_zero h4)] using this
    · cases h
  · cases h

/-- Every memory operation keeps the canonical form: placing a word keeps it. -/
theorem placeWord_wf {m : Memory} (i : Nat) (w : Word) (h : m.wf = true) : (m.placeWord i w).wf = true := by
  unfold Memory.placeWord
  split
  · refine putWordCells_canonical (cells := m.cells) w (Nat.zero_le _) ?_ ?_
    · simp only [Memory.lenBytes]; omega
    · refine cellsCanonical_mono (Nat.le_refl 0) ?_ h
      simp only [Memory.lenBytes]; omega
  · exact h

/-- The reset memory is canonical. -/
theorem reset_wf : State.reset.mem.wf = true := rfl

/-- D3's bound as a number. -/
theorem lenWords_le (m : Memory) : m.lenWords.val ≤ 1073741823 := Nat.le_of_lt_succ m.lenWords.isLt

/-! ### What a read gives -/

/-- Below every listed offset, an offset is unlisted. -/
theorem byteInCells_below {hi : Nat} : ∀ {cells : List Host.Cell} {lo a : Nat},
    cellsCanonical lo hi cells = true → a < lo → byteInCells a cells = unlistedByte
  | [], _, _, _, _ => rfl
  | (a', b') :: rest, lo, a, h, ha => by
    simp only [cellsCanonical, Bool.and_eq_true, decide_eq_true_eq] at h
    have ne : a' ≠ a := by omega
    simp only [byteInCells, ne, if_false]
    exact byteInCells_below h.2 (by omega)

/-- The loaded cells read as the bytes that were loaded. -/
theorem byteInCells_cellsOfBytes : ∀ (bytes : List Byte) (a k : Nat) (h : k < bytes.length),
    byteInCells (a + k) (cellsOfBytes a bytes) = bytes[k]
  | b :: bs, a, 0, _ => by
    have hbelow : byteInCells a (cellsOfBytes (a + 1) bs) = unlistedByte :=
      byteInCells_below (cellsOfBytes_canonical bs (a + 1)) (by omega)
    simp only [cellsOfBytes, Nat.add_zero, List.getElem_cons_zero]
    split
    · next hb => rw [hbelow, hb]
    · simp [byteInCells]
  | b :: bs, a, k + 1, h => by
    have ih := byteInCells_cellsOfBytes bs (a + 1) k (by simpa using h)
    have e : a + (k + 1) = a + 1 + k := by omega
    have ne : a ≠ a + 1 + k := by omega
    simp only [cellsOfBytes, e, List.getElem_cons_succ]
    split
    · exact ih
    · simp only [byteInCells, ne, if_false]; exact ih

/-- The byte that was put is read back; every other offset reads as before. -/
theorem byteInCells_putCell {hi : Nat} (a : Nat) (b : Byte) (x : Nat) : ∀ {cells : List Host.Cell} {lo : Nat},
    cellsCanonical lo hi cells = true →
      byteInCells x (putCell a b cells) = if x = a then b else byteInCells x cells
  | [], _, _ => by
    unfold putCell
    by_cases hx : x = a
    · subst hx; split <;> simp_all [byteInCells]
    · split <;> simp [byteInCells, Ne.symm hx]
  | (a', b') :: rest, lo, h => by
    have hc := h
    simp only [cellsCanonical, Bool.and_eq_true, decide_eq_true_eq] at h
    unfold putCell
    split
    · next hlt =>
      have hun : x = a → byteInCells x ((a', b') :: rest) = unlistedByte := fun e => by
        subst e
        have hc' : cellsCanonical a' hi ((a', b') :: rest) = true := by simp_all [cellsCanonical]
        exact byteInCells_below hc' hlt
      by_cases hx : x = a
      · split
        · next hb => simp [hx, hb, ← hun hx]
        · simp [byteInCells, hx]
      · split
        · simp
        · have : a ≠ x := Ne.symm hx
          simp [byteInCells, this]
    · split
      · next heq =>
        subst heq
        have hun : x = a → byteInCells x rest = unlistedByte := fun e =>
          byteInCells_below h.2 (by omega)
        by_cases hx : x = a
        · split
          · next hb => simp [hx, hb, ← hun hx]
          · simp [byteInCells, hx]
        · have : a ≠ x := Ne.symm hx
          split <;> simp [byteInCells, this]
      · next hge hne =>
        have ih := byteInCells_putCell a b x (cells := rest) h.2
        by_cases hx' : a' = x
        · have : x ≠ a := by omega
          simp [byteInCells, hx', this]
        · simp only [byteInCells, hx', if_false]; exact ih

/-- A canonical list is determined by what it reads as. -/
theorem cells_ext {hi : Nat} : ∀ {cells cells' : List Host.Cell} {lo : Nat},
    cellsCanonical lo hi cells = true → cellsCanonical lo hi cells' = true →
      (∀ a, byteInCells a cells = byteInCells a cells') → cells = cells'
  | [], [], _, _, _, _ => rfl
  | [], (a, b) :: rest, lo, _, h', e => by
    simp only [cellsCanonical, Bool.and_eq_true, decide_eq_true_eq] at h'
    have := e a
    simp only [byteInCells, if_true] at this
    simp [← this] at h'
  | (a, b) :: rest, [], lo, h, _, e => by
    simp only [cellsCanonical, Bool.and_eq_true, decide_eq_true_eq] at h
    have := e a
    simp only [byteInCells, if_true] at this
    simp [this] at h
  | (a, b) :: rest, (a', b') :: rest', lo, h, h', e => by
    simp only [cellsCanonical, Bool.and_eq_true, decide_eq_true_eq, bne_iff_ne] at h h'
    obtain ⟨⟨⟨h1, h2⟩, h3⟩, h4⟩ := h
    obtain ⟨⟨⟨h1', h2'⟩, h3'⟩, h4'⟩ := h'
    have haa : a = a' := by
      rcases Nat.lt_trichotomy a a' with hlt | heq | hgt
      · have hne : a' ≠ a := by omega
        have := e a
        simp only [byteInCells, if_true, hne, if_false] at this
        rw [byteInCells_below h4' (by omega)] at this
        exact absurd this h3
      · exact heq
      · have hne : a ≠ a' := by omega
        have := e a'
        simp only [byteInCells, if_true, hne, if_false] at this
        rw [byteInCells_below h4 (by omega)] at this
        exact absurd this.symm h3'
    subst haa
    have hb : b = b' := by simpa [byteInCells] using e a
    subst hb
    have hrest : rest = rest' := cells_ext h4 h4' fun x => by
      by_cases hx : a = x
      · subst hx; rw [byteInCells_below h4 (by omega), byteInCells_below h4' (by omega)]
      · simpa [byteInCells, hx] using e x
    rw [hrest]

/-! ### The load (R30, R31) -/

/-- Everything a successful load says: the length is a multiple of 4, LEN_BYTES is the length, and byte offset `k` is
byte `k` of the image. -/
theorem load_ok {bytes : List Byte} {m : Memory} (h : Memory.load bytes = .ok m) :
    m.lenBytes = bytes.length ∧ ∀ k, m.readByte k = bytes[k]? := by
  unfold Memory.load at h
  split at h
  · next h4 =>
    split at h
    · next hb =>
      cases h
      have hlen : 4 * (bytes.length / 4) = bytes.length := Nat.mul_div_cancel' (Nat.dvd_of_mod_eq_zero h4)
      refine ⟨hlen, fun k => ?_⟩
      unfold Memory.readByte
      simp only [Memory.lenBytes, hlen]
      split
      · next hk =>
        have := byteInCells_cellsOfBytes bytes 0 k hk
        rw [Nat.zero_add] at this
        rw [this, List.getElem?_eq_getElem hk]
      · next hk => simp [List.getElem?_eq_none (Nat.le_of_not_lt hk)]
    · cases h
  · cases h

/-! ### Words and the fetch (R33, R36 to R38) -/

@[simp] theorem readByte_isSome (m : Memory) (a : Nat) : (m.readByte a).isSome = decide (a < m.lenBytes) := by
  unfold Memory.readByte
  split <;> simp_all

/-- R33: MemRead at an aligned offset inside the image is the little-endian word of its four bytes. -/
theorem readWord_inside {m : Memory} {a : Nat} (h4 : a % 4 = 0) (ha : a + 3 < m.lenBytes) :
    m.readWord a = some (wordOfBytes (byteInCells a m.cells) (byteInCells (a + 1) m.cells)
      (byteInCells (a + 2) m.cells) (byteInCells (a + 3) m.cells)) := by
  have h0 : a < m.lenBytes := by omega
  have h1 : a + 1 < m.lenBytes := by omega
  have h2 : a + 2 < m.lenBytes := by omega
  simp [Memory.readWord, Memory.readByte, h4, h0, h1, h2, ha]

/-- Two memories that read the same bytes read the same words. -/
theorem readWord_congr {m m' : Memory} {a : Nat} (h : ∀ k < 4, m.readByte (a + k) = m'.readByte (a + k)) :
    m.readWord a = m'.readWord a := by
  have h0 := h 0 (by omega)
  rw [Nat.add_zero] at h0
  simp only [Memory.readWord, h0, h 1 (by omega), h 2 (by omega), h 3 (by omega)]

@[simp] theorem inBounds_eq_true (m : Memory) (u : PcUnit) (pc : Word) :
    inBounds m u pc = true ↔ wordIndex u pc < m.lenWords.val := decide_eq_true_iff

@[simp] theorem inBounds_eq_false (m : Memory) (u : PcUnit) (pc : Word) :
    inBounds m u pc = false ↔ m.lenWords.val ≤ wordIndex u pc := by
  rw [← Bool.not_eq_true, inBounds_eq_true, Nat.not_lt]

@[simp] theorem pcAligned_eq_true (u : PcUnit) (pc : Word) : pcAligned u pc = true ↔ pc.toNat % u.toNat = 0 :=
  beq_iff_eq

theorem unit_pos (u : PcUnit) : 0 < u.toNat := by cases u <;> decide

/-- R37 and R38: a fetch answers a word exactly when the pc is in bounds. -/
theorem fetchWord_isSome (m : Memory) (u : PcUnit) (pc : Word) : (fetchWord m u pc).isSome = inBounds m u pc := by
  unfold fetchWord
  split
  · next h =>
    have hlt : wordIndex u pc < m.lenWords.val := of_decide_eq_true h
    have h4 : byteOffset u pc % 4 = 0 := by simp [byteOffset]
    have hb : byteOffset u pc + 3 < m.lenBytes := by simp only [byteOffset, Memory.lenBytes]; omega
    rw [readWord_inside h4 hb]
    exact h.symm
  · next h => simpa using h

theorem fetchWord_eq_none {m : Memory} {u : PcUnit} {pc : Word} : fetchWord m u pc = none ↔ inBounds m u pc = false := by
  rw [← fetchWord_isSome]
  cases fetchWord m u pc <;> simp

/-- R33 read both ways: the four bytes of a word, least significant first, make the word. -/
theorem wordOfBytes_byteOfWord (w : Word) :
    wordOfBytes (byteOfWord w 0) (byteOfWord w 1) (byteOfWord w 2) (byteOfWord w 3) = w := by
  apply BitVec.eq_of_getLsbD_eq
  intro i hi
  unfold wordOfBytes byteOfWord
  rw [BitVec.getLsbD_append, BitVec.getLsbD_append, BitVec.getLsbD_append]
  simp only [BitVec.getLsbD_extractLsb']
  rcases (by omega : i < 8 ∨ (8 ≤ i ∧ i < 16) ∨ (16 ≤ i ∧ i < 24) ∨ (24 ≤ i ∧ i < 32)) with h | h | h | h
  · simp [h]
  · have h1 : ¬ i < 8 := by omega
    have h2 : i - 8 < 8 := by omega
    have h3 : 8 + (i - 8) = i := by omega
    simp [h1, h2, h3]
  · have h1 : ¬ i < 8 := by omega
    have h2 : ¬ i - 8 < 8 := by omega
    have h3 : i - 8 - 8 < 8 := by omega
    have h4 : 16 + (i - 8 - 8) = i := by omega
    simp [h1, h2, h3, h4]
  · have h1 : ¬ i < 8 := by omega
    have h2 : ¬ i - 8 < 8 := by omega
    have h3 : ¬ i - 8 - 8 < 8 := by omega
    have h4 : i - 8 - 8 - 8 < 8 := by omega
    have h5 : 24 + (i - 8 - 8 - 8) = i := by omega
    simp [h1, h2, h3, h4, h5]

/-- What the cells read as after a word is put: the word's bytes at its four offsets, every other offset as before. -/
theorem byteInCells_putWordCells {a lo hi : Nat} (w : Word) (x : Nat) {cells : List Host.Cell} (hlo : lo ≤ a)
    (hhi : a + 3 < hi) (h : cellsCanonical lo hi cells = true) :
    byteInCells x (putWordCells a w cells) =
      if x = a + 3 then byteOfWord w 3 else if x = a + 2 then byteOfWord w 2
      else if x = a + 1 then byteOfWord w 1 else if x = a then byteOfWord w 0 else byteInCells x cells := by
  have c0 := putCell_canonical (a := a) (byteOfWord w 0) (by omega) hlo h
  have c1 := putCell_canonical (a := a + 1) (byteOfWord w 1) (by omega) (by omega) c0
  have c2 := putCell_canonical (a := a + 2) (byteOfWord w 2) (by omega) (by omega) c1
  unfold putWordCells
  rw [byteInCells_putCell _ _ _ c2, byteInCells_putCell _ _ _ c1, byteInCells_putCell _ _ _ c0,
    byteInCells_putCell _ _ _ h]

/-- The word placed at an index is the word a fetch there reads. -/
theorem placeWord_readWord {m : Memory} (hm : m.wf = true) {i : Nat} (hi : i < Config.maxImageWords) (w : Word) :
    (m.placeWord i w).readWord (4 * i) = some w := by
  have hc : cellsCanonical 0 (4 * max m.lenWords.val (i + 1)) m.cells = true :=
    cellsCanonical_mono (Nat.le_refl 0) (by simp only [Memory.lenBytes]; omega) hm
  have hlen : 4 * i + 3 < (m.placeWord i w).lenBytes := by
    simp only [Memory.placeWord, hi, dif_pos, Memory.lenBytes]; omega
  rw [readWord_inside (by omega) hlen]
  simp only [Memory.placeWord, hi, dif_pos]
  have r := fun x => byteInCells_putWordCells (a := 4 * i) w x (Nat.zero_le _) (by omega) hc
  have e1 : ¬ 4 * i + 2 = 4 * i + 3 := by omega
  have e2 : ¬ 4 * i + 1 = 4 * i + 3 := by omega
  have e3 : ¬ 4 * i + 1 = 4 * i + 2 := by omega
  have e4 : ¬ 4 * i = 4 * i + 3 := by omega
  have e5 : ¬ 4 * i = 4 * i + 2 := by omega
  have e6 : ¬ 4 * i = 4 * i + 1 := by omega
  simp only [r, e1, e2, e3, e4, e5, e6, if_true, if_false, wordOfBytes_byteOfWord]

/-- A placed word leaves every byte outside its own four as it was. -/
theorem placeWord_readByte_other {m : Memory} (hm : m.wf = true) (i : Nat) (w : Word) {a : Nat} (ha : a < m.lenBytes)
    (hne : a / 4 ≠ i) : (m.placeWord i w).readByte a = m.readByte a := by
  unfold Memory.placeWord
  split
  · have hc : cellsCanonical 0 (4 * max m.lenWords.val (i + 1)) m.cells = true :=
      cellsCanonical_mono (Nat.le_refl 0) (by simp only [Memory.lenBytes]; omega) hm
    have hlt : a < 4 * max m.lenWords.val (i + 1) := by
      simp only [Memory.lenBytes] at ha; omega
    have e3 : ¬ a = 4 * i + 3 := by omega
    have e2 : ¬ a = 4 * i + 2 := by omega
    have e1 : ¬ a = 4 * i + 1 := by omega
    have e0 : ¬ a = 4 * i := by omega
    simp only [Memory.readByte]
    rw [byteInCells_putWordCells w a (Nat.zero_le _) (by omega) hc]
    simp only [e3, e2, e1, e0, if_false, ha, if_true]
    simp [Memory.lenBytes, hlt]
  · rfl

end Sys2Proof.Machine
end

