-- ==== Sys2Proof/Laws/PerInstr.lean ====
section
/-! SUPPORT. The family EncodeMatchesRow: the word of an instruction matches its own row of the opcode map (R52). -/

namespace Sys2Proof.Laws.EncodeMatchesRow

/-- The encoded word, under the row's mask, is the row's match value. -/
def Statement (i : Instr) : Prop := encode i &&& i.rowMask = i.rowMatch

theorem lui (rd : RegIdx) (imm : Word) : Statement (.lui rd imm) := by
  unfold Statement Instr.rowMask encode
  rw [and_opcodeMask, uFormat_opcode]
  rfl

theorem addi (rd rs1 : RegIdx) (imm : Word) : Statement (.addi rd rs1 imm) := by
  unfold Statement Instr.rowMask encode
  rw [and_funct3Mask, iFormat_opcode, iFormat_funct3]
  rfl

theorem add (rd rs1 rs2 : RegIdx) : Statement (.add rd rs1 rs2) := by
  unfold Statement Instr.rowMask encode
  rw [and_funct7Mask, rFormat_opcode, rFormat_funct3, rFormat_funct7]
  rfl

theorem sub (rd rs1 rs2 : RegIdx) : Statement (.sub rd rs1 rs2) := by
  unfold Statement Instr.rowMask encode
  rw [and_funct7Mask, rFormat_opcode, rFormat_funct3, rFormat_funct7]
  rfl

theorem ecall : Statement .ecall := by
  unfold Statement; decide

end Sys2Proof.Laws.EncodeMatchesRow
end

