-- ==== Sys2Proof/Laws/State.lean ====
section
/-! SUPPORT. One lemma per field per update of State, and the register file's laws. -/

namespace Sys2Proof.Machine

section RegisterFile
variable (s : State) (r r' : RegIdx) (v : Word)

@[simp] theorem writeReg_pc : (s.writeReg r v).pc = s.pc := by unfold State.writeReg; split <;> rfl
@[simp] theorem writeReg_status : (s.writeReg r v).status = s.status := by unfold State.writeReg; split <;> rfl
@[simp] theorem writeReg_mem : (s.writeReg r v).mem = s.mem := by unfold State.writeReg; split <;> rfl
@[simp] theorem writeReg_pcUnit : (s.writeReg r v).pcUnit = s.pcUnit := by unfold State.writeReg; split <;> rfl

/-- R19: register 0 reads zero. -/
@[simp] theorem readReg_zero : s.readReg 0 = 0#32 := rfl

/-- R20: a write to register 0 is discarded. -/
@[simp] theorem writeReg_zero : s.writeReg 0 v = s := rfl

/-- R19 and R20 together: what a read gives after a write. -/
theorem readReg_writeReg :
    (s.writeReg r v).readReg r' = if r' = r ∧ r ≠ 0 then v else s.readReg r' := by
  by_cases h0 : r = 0
  · subst h0; simp
  have hr : r.val ≠ 0 := fun h => h0 (Fin.ext h)
  unfold State.writeReg
  rw [dif_neg hr]
  by_cases e : r' = r
  · subst e
    simp [State.readReg, hr, h0]
  · by_cases hr' : r'.val = 0
    · simp [State.readReg, hr', e]
    · have ne : r.val - 1 ≠ r'.val - 1 := fun h => e (Fin.ext (by omega))
      simp [State.readReg, hr', e, Vector.getElem_set_ne _ _ ne]

theorem readReg_writeReg_same (h : r ≠ 0) : (s.writeReg r v).readReg r = v := by
  simp [readReg_writeReg, h]

theorem readReg_writeReg_other (h : r' ≠ r) : (s.writeReg r v).readReg r' = s.readReg r' := by
  simp [readReg_writeReg, h]

end RegisterFile

section Advance
variable (s : State)

@[simp] theorem advance_gprs : s.advance.gprs = s.gprs := rfl
@[simp] theorem advance_pc : s.advance.pc = s.pc + s.pcUnit.toWord := rfl
@[simp] theorem advance_status : s.advance.status = s.status := rfl
@[simp] theorem advance_mem : s.advance.mem = s.mem := rfl
@[simp] theorem advance_pcUnit : s.advance.pcUnit = s.pcUnit := rfl
@[simp] theorem advance_readReg (r : RegIdx) : s.advance.readReg r = s.readReg r := rfl

end Advance

section Retire
variable (s : State) (rd r : RegIdx) (v : Word)

@[simp] theorem retire_pc : (s.retire rd v).pc = s.pc + s.pcUnit.toWord := by simp [State.retire]
@[simp] theorem retire_status : (s.retire rd v).status = s.status := by simp [State.retire]
@[simp] theorem retire_mem : (s.retire rd v).mem = s.mem := by simp [State.retire]
@[simp] theorem retire_pcUnit : (s.retire rd v).pcUnit = s.pcUnit := by simp [State.retire]
@[simp] theorem retire_zero : s.retire 0 v = s.advance := rfl

/-- What every register reads after an instruction retires (R62). -/
theorem retire_readReg :
    (s.retire rd v).readReg r = if r = rd ∧ rd ≠ 0 then v else s.readReg r := by
  simp [State.retire, readReg_writeReg]

end Retire

section EndOfRun
variable (s : State) (f : FaultInfo)

@[simp] theorem raise_gprs : (s.raise f).gprs = s.gprs := rfl
@[simp] theorem raise_pc : (s.raise f).pc = s.pc := rfl
@[simp] theorem raise_status : (s.raise f).status = f.toStatus := rfl
@[simp] theorem raise_mem : (s.raise f).mem = s.mem := rfl
@[simp] theorem raise_pcUnit : (s.raise f).pcUnit = s.pcUnit := rfl

@[simp] theorem halt_gprs : s.halt.gprs = s.gprs := rfl
@[simp] theorem halt_pc : s.halt.pc = s.pc := rfl
@[simp] theorem halt_status : s.halt.status = .halted := rfl
@[simp] theorem halt_mem : s.halt.mem = s.mem := rfl
@[simp] theorem halt_pcUnit : s.halt.pcUnit = s.pcUnit := rfl
@[simp] theorem halt_readReg (r : RegIdx) : s.halt.readReg r = s.readReg r := rfl

end EndOfRun

section Placing
variable (s : State) (w : Word)

@[simp] theorem placeAtPc_gprs : (s.placeAtPc w).gprs = s.gprs := rfl
@[simp] theorem placeAtPc_pc : (s.placeAtPc w).pc = s.pc := rfl
@[simp] theorem placeAtPc_status : (s.placeAtPc w).status = .running := rfl
@[simp] theorem placeAtPc_mem : (s.placeAtPc w).mem = s.mem.placeWord (wordIndex s.pcUnit s.pc) w := rfl
@[simp] theorem placeAtPc_pcUnit : (s.placeAtPc w).pcUnit = s.pcUnit := rfl

end Placing

section Start
variable (u : PcUnit) (m : Memory)

@[simp] theorem start_gprs : (State.start u m).gprs = Vector.replicate 31 0#32 := rfl
@[simp] theorem start_pc : (State.start u m).pc = 0#32 := rfl
@[simp] theorem start_status : (State.start u m).status = .running := rfl
@[simp] theorem start_mem : (State.start u m).mem = m := rfl
@[simp] theorem start_pcUnit : (State.start u m).pcUnit = u := rfl

/-- R28: every register reads zero at the start of a run. -/
@[simp] theorem start_readReg (r : RegIdx) : (State.start u m).readReg r = 0#32 := by
  unfold State.readReg
  split <;> simp

end Start

section StatusValues

@[simp] theorem terminal_eq_false (st : Status) : st.terminal = false ↔ st = .running := by
  cases st <;> simp [Status.terminal]

@[simp] theorem terminal_eq_true (st : Status) : st.terminal = true ↔ st ≠ .running := by
  cases st <;> simp [Status.terminal]

@[simp] theorem toStatus_ne_running (f : FaultInfo) : f.toStatus ≠ .running := by
  cases f <;> simp [FaultInfo.toStatus]

@[simp] theorem toStatus_ne_halted (f : FaultInfo) : f.toStatus ≠ .halted := by
  cases f <;> simp [FaultInfo.toStatus]

/-- A fault's information is read back from the status that records it (R25). -/
@[simp] theorem faultInfo_toStatus (f : FaultInfo) : f.toStatus.faultInfo = some f := by
  cases f <;> rfl

end StatusValues

end Sys2Proof.Machine
end

