-- ==== Sys2Proof/Laws/Step.lean ====
section
/-! SUPPORT. What an instruction, a step and a run can do, each said once. -/

namespace Sys2Proof.Machine

/-- Everything an instruction can do: retire with a value in its destination, or halt (R63). -/
theorem exec_cases (i : Instr) (s : State) :
    (∃ rd v, i.dest = some rd ∧ exec i s = .next (s.retire rd v)) ∨ (i = .ecall ∧ exec i s = .next s.halt) := by
  cases i with
  | lui rd imm => exact .inl ⟨rd, _, rfl, rfl⟩
  | addi rd rs1 imm => exact .inl ⟨rd, _, rfl, rfl⟩
  | add rd rs1 rs2 => exact .inl ⟨rd, _, rfl, rfl⟩
  | sub rd rs1 rs2 => exact .inl ⟨rd, _, rfl, rfl⟩
  | ecall => exact .inr ⟨rfl, rfl⟩

/-- Everything a step can do when it answers a next state (R61, R62). -/
theorem step_cases {s t : State} (h : step s = .next t) :
    s.status = .running ∧ pcAligned s.pcUnit s.pc = true ∧
    ((s.fetch = none ∧ t = s.raise (.fetchOutOfBounds s.pc)) ∨
     (∃ w, s.fetch = some w ∧ decodeWord w = .unrecognized ∧ t = s.raise (.unrecognizedInstruction w s.pc)) ∨
     (∃ w, s.fetch = some w ∧ decodeWord w = .instr .ecall ∧ t = s.halt) ∨
     (∃ w i rd v, s.fetch = some w ∧ decodeWord w = .instr i ∧ i.dest = some rd ∧ t = s.retire rd v)) := by
  unfold step cycle at h
  split at h
  · cases h
  next hst =>
  split at h
  · next hal =>
    refine ⟨by simpa using hst, hal, ?_⟩
    unfold runningCycle at h
    split at h
    · next hf => cases h; exact .inl ⟨hf, rfl⟩
    · next w hf =>
      split at h
      · next i hd =>
        rcases exec_cases i s with ⟨rd, v, hdest, he⟩ | ⟨rfl, he⟩
        · rw [he] at h; cases h; exact .inr (.inr (.inr ⟨w, i, rd, v, hf, hd, hdest, rfl⟩))
        · rw [he] at h; cases h; exact .inr (.inr (.inl ⟨w, hf, hd, rfl⟩))
      · next hd => cases h; exact .inr (.inl ⟨w, hf, hd, rfl⟩)
  · cases h

/-- A step leaves the image and PC_UNIT as data (R26). -/
theorem step_mem {s t : State} (h : step s = .next t) : t.mem = s.mem ∧ t.pcUnit = s.pcUnit := by
  obtain ⟨-, -, ⟨-, rfl⟩ | ⟨w, -, -, rfl⟩ | ⟨w, -, -, rfl⟩ | ⟨w, i, rd, v, -, -, -, rfl⟩⟩ := step_cases h <;> simp

/-! ### Runs -/

@[simp] theorem run_zero (s : State) : run 0 s = .next s := rfl

theorem run_terminal {s : State} (h : s.status ≠ .running) : ∀ k, run k s = .next s
  | 0 => rfl
  | k + 1 => by simp [run, h]

theorem run_step {s t : State} (hs : s.status = .running) (h : step s = .next t) (k : Nat) :
    run (k + 1) s = run k t := by
  simp [run, hs, h, Status.terminal]

/-- A run of `k + 1` steps that answers a state: it is over already, or it takes a step and runs on. -/
theorem run_succ_cases {k : Nat} {s t : State} (h : run (k + 1) s = .next t) :
    (s.status ≠ .running ∧ t = s) ∨ (s.status = .running ∧ ∃ m, step s = .next m ∧ run k m = .next t) := by
  unfold run at h
  split at h
  · next hst => cases h; exact .inl ⟨by simpa using hst, rfl⟩
  · next hst =>
    refine .inr ⟨by simpa using hst, ?_⟩
    split at h
    · next m hm => exact ⟨m, hm, h⟩
    · cases h
    · cases h

end Sys2Proof.Machine
end

