-- ==== Sys2Proof/Tests/Slice0.lean ====
section
/-! SUPPORT. Smoke tests, decodings from words written out, single steps with the vectors of spec/95_test_vectors.md, and
for every statement with hypotheses a witness that meets them together. -/

open Sys2Proof Sys2Proof.Machine

namespace Sys2Proof.Tests

/-! ### WellFormed -/

theorem test_lui_with_a_low_bit_is_ill_formed : (Instr.lui 1 0x00001001#32).wf = false := by decide
theorem test_lui_with_low_bit_11_is_ill_formed : (Instr.lui 1 0x00000800#32).wf = false := by decide
theorem test_addi_of_2048_is_ill_formed : (Instr.addi 1 1 0x00000800#32).wf = false := by decide
theorem test_addi_of_minus_2049_is_ill_formed : (Instr.addi 1 1 0xFFFFF7FF#32).wf = false := by decide

/-! ### Decoding, from words written out by the formats of R48 and the map of R52 -/

/-- imm20 = 0x00001, rd = 5 (95_test_vectors.md S3). -/
theorem test_decode_lui : decodeWord 0b00000000000000000001_00101_0110111#32 = .instr (.lui 5 0x00001000#32) := by decide
/-- imm12 = 0xFFD (-3), rs1 = 5, funct3 = 000, rd = 6 (S4). -/
theorem test_decode_addi :
    decodeWord 0b111111111101_00101_000_00110_0010011#32 = .instr (.addi 6 5 0xFFFFFFFD#32) := by decide
/-- funct7 = 0000000, rs2 = 2, rs1 = 1, funct3 = 000, rd = 3 (S5). -/
theorem test_decode_add : decodeWord 0b0000000_00010_00001_000_00011_0110011#32 = .instr (.add 3 1 2) := by decide
/-- funct7 = 0100000, rs2 = 16, the rest 0 (2.1: bit 24 belongs to rs2). -/
theorem test_decode_sub : decodeWord 0b0100000_10000_00000_000_00000_0110011#32 = .instr (.sub 0 0 16) := by decide
/-- All bits above the opcode 1 (2.1). -/
theorem test_decode_ecall : decodeWord 0b1111111111111111111111111_1110011#32 = .instr .ecall := by decide
/-- Funct7 = 0000001, standard MUL (2.1). -/
theorem test_decode_mul_unrecognized : decodeWord 0b0000001_00000_00000_000_00000_0110011#32 = .unrecognized := by decide
/-- The bytes of `sub x4, x0, x2` in image order, with bytes after it (P2). -/
theorem test_decode_bytes_sub :
    decodeBytes [0x33#8, 0x02#8, 0x20#8, 0x40#8, 0x73#8] = .instr (.sub 4 0 2) [0x73#8] := by decide
theorem test_decode_three_bytes_truncated : decodeBytes [0x73#8, 0#8, 0#8] = .truncated := by decide
theorem test_decode_table_word : decodeTableWord 32 0x40000033 = some (.sub 0 0 0) := by decide
/-- R59's encoders on P5's words. -/
theorem test_encode_words : encode (.lui 10 0xDEADC000#32) = 0xDEADC537#32 ∧
    encode (.addi 10 10 0xFFFFFEEF#32) = 0xEEF50513#32 ∧ encode (.add 3 1 2) = 0x002081B3#32 ∧
    encode (.sub 4 0 2) = 0x40200233#32 ∧ encode .ecall = 0x00000073#32 := by decide

/-! ### Single steps -/

/-- The reset state with one instruction word at pc 0. -/
def atReset (w : Nat) : State := State.reset.withFetchWord 32 w

/-- What register `r` and the pc are after a step, none if there is no next state. -/
def afterStep (s : State) (r : RegIdx) : Option (Word × Word) :=
  match step s with
  | .next t => some (t.readReg r, t.pc)
  | .fault _ => none
  | .refused _ => none

/-- The status after a step. -/
def statusAfterStep (s : State) : Option Status :=
  match step s with
  | .next t => some t.status
  | .fault _ => none
  | .refused _ => none

/-- S3, over a register that held 0xFFFFFFFF: an absolute write, not an add (2.2). -/
theorem test_lui_is_absolute :
    afterStep ((atReset 0x000012B7).writeReg 5 0xFFFFFFFF#32) 5 = some (0x00001000#32, 4#32) := by decide
/-- 2.2: `lui x0, 0xABCDE` writes nothing. -/
theorem test_lui_to_x0 : afterStep (atReset 0xABCDE037) 0 = some (0#32, 4#32) := by decide
/-- S4: 10 + (-3) = 7. -/
theorem test_addi_sign_extends :
    afterStep ((atReset 0xFFD28313).writeReg 5 10#32) 6 = some (7#32, 4#32) := by decide
/-- 2.3: rd = rs1 uses the old value. -/
theorem test_addi_rd_is_rs1 :
    afterStep ((atReset 0xFFD28293).writeReg 5 0x1000#32) 5 = some (0xFFD#32, 4#32) := by decide
/-- S5: 0xFFFFFFFF + 1 = 0. -/
theorem test_add_wraps :
    afterStep (((atReset 0x002081B3).writeReg 1 0xFFFFFFFF#32).writeReg 2 1#32) 3 = some (0#32, 4#32) := by decide
/-- 2.4: all three the same register. -/
theorem test_add_doubles :
    afterStep ((atReset 0x001080B3).writeReg 1 0x40000001#32) 1 = some (0x80000002#32, 4#32) := by decide
/-- 2.5: 3 - 10, the operand order. -/
theorem test_sub_order :
    afterStep (((atReset 0x402081B3).writeReg 1 3#32).writeReg 2 10#32) 3 = some (0xFFFFFFF9#32, 4#32) := by decide
/-- 2.5: rd = rs2 uses the old value. -/
theorem test_sub_rd_is_rs2 :
    afterStep (((atReset 0x40208133).writeReg 1 10#32).writeReg 2 3#32) 2 = some (7#32, 4#32) := by decide
/-- 2.6: a CSRRW word halts; x5 is not written and the pc stays. -/
theorem test_ecall_alias_halts : statusAfterStep (atReset 0xC00012F3) = some .halted ∧
    afterStep ((atReset 0xC00012F3).writeReg 5 9#32) 5 = some (9#32, 0#32) := by decide
/-- P3: the all-zero word. -/
theorem test_zero_word_faults : statusAfterStep (atReset 0) = some (.faultUnrecognized 0#32 0#32) := by decide
/-- P7: the reset state holds the empty image. -/
theorem test_empty_image_faults : statusAfterStep State.reset = some (.faultFetchOob 0#32) := by decide
/-- Under PC_UNIT = 1 the pc advances by 1 (2.2). -/
theorem test_pc_counts_words :
    afterStep (({ State.reset with pcUnit := .word, pc := 3#32 } : State).withFetchWord 32 0x00000013) 1
      = some (0#32, 4#32) := by decide

/-- 2.7's image, and 2.8's lengths. -/
theorem test_load_check : Memory.load [0xB7#8, 0x12#8, 0#8] = .misalignedImage ∧ Memory.load [] = .ok ⟨[], 0⟩ ∧
    Memory.load [0xB7#8, 0x12#8, 0#8, 0#8] = .ok ⟨[(0, 0xB7#8), (1, 0x12#8)], 1⟩ := by decide
/-- 2.7: a fetch is little-endian; past the last word there is none. -/
theorem test_fetch : fetchWord ⟨[(0, 0xB7#8), (1, 0x12#8)], 1⟩ .byte 0#32 = some 0x000012B7#32 ∧
    fetchWord ⟨[(0, 0xB7#8), (1, 0x12#8)], 1⟩ .byte 4#32 = none ∧
    fetchWord ⟨[(0, 0xB7#8), (1, 0x12#8)], 1⟩ .word 1#32 = none := by decide

/-! ### Witnesses -/

/-- A one-word image holding the canonical ECALL. -/
def ecallBytes : List Byte := [0x73#8, 0#8, 0#8, 0#8]
def ecallMemory : Memory := ⟨[(0, 0x73#8)], 1⟩

theorem witness_DecodeAndEncodeAgree : (Instr.lui 31 0xFFFFF000#32).wf = true ∧ (Instr.addi 1 2 0xFFFFF800#32).wf = true ∧
    (Instr.addi 1 2 0x000007FF#32).wf = true ∧ (Instr.add 0 31 1).wf = true ∧
    decodeWord 0x80008113#32 = .instr (.addi 2 1 0xFFFFF800#32) := by decide

theorem witness_LuiAddiEcallWordsDecodeByTheirFields :
    (0xFFFFF037#32).extractLsb' 0 7 = 0b0110111#7 ∧
    ((0x80000013#32).extractLsb' 0 7 = 0b0010011#7 ∧ (0x80000013#32).extractLsb' 12 3 = 0b000#3) ∧
    ((0x00001013#32).extractLsb' 0 7 = 0b0010011#7 ∧ (0x00001013#32).extractLsb' 12 3 ≠ 0b000#3) ∧
    (0xFFFFFFF3#32).extractLsb' 0 7 = 0b1110011#7 := by decide

theorem witness_AddSubWordsDecodeByTheirFields :
    ((0x01F00033#32).extractLsb' 0 7 = 0b0110011#7 ∧ (0x41F00033#32).extractLsb' 0 7 = 0b0110011#7 ∧
      (0x02000033#32).extractLsb' 0 7 = 0b0110011#7 ∧ (0xC0000033#32).extractLsb' 0 7 = 0b0110011#7 ∧
      (0x00007033#32).extractLsb' 0 7 = 0b0110011#7) ∧
    ((0x01F00033#32).extractLsb' 12 3 = 0b000#3 ∧ (0x01F00033#32).extractLsb' 25 7 = 0b0000000#7) ∧
    ((0x41F00033#32).extractLsb' 12 3 = 0b000#3 ∧ (0x41F00033#32).extractLsb' 25 7 = 0b0100000#7) ∧
    (0x00007033#32).extractLsb' 12 3 ≠ 0b000#3 ∧
    ((0x02000033#32).extractLsb' 25 7 ≠ 0b0000000#7 ∧ (0x02000033#32).extractLsb' 25 7 ≠ 0b0100000#7) ∧
    ((0xC0000033#32).extractLsb' 25 7 ≠ 0b0000000#7 ∧ (0xC0000033#32).extractLsb' 25 7 ≠ 0b0100000#7) := by decide

theorem witness_MaskAndMatchRowsDecideTheVariant : decodeWord 0x402081B3#32 = .instr (.sub 3 1 2) ∧
    decodeWord 0xFFFFFFFF#32 = .unrecognized := by decide

theorem witness_LuiImmediateIsTheTopTwentyBits : decodeWord 0x800000B7#32 = .instr (.lui 1 0x80000000#32) := by decide

theorem witness_AddiImmediateIsSignExtended : decodeWord 0x80000013#32 = .instr (.addi 0 0 0xFFFFF800#32) ∧
    decodeWord 0x7FF00013#32 = .instr (.addi 0 0 0x000007FF#32) := by decide

theorem witness_RegisterZeroReadsZeroAroundEveryInstruction : ∃ t, exec (.addi 0 1 5#32) State.reset = .next t := ⟨_, rfl⟩

theorem witness_WriteReplacesOneRegister : (1 : RegIdx) ≠ 0 ∧ (31 : RegIdx) ≠ 0 ∧ (31 : RegIdx) ≠ 1 := by decide

theorem witness_RdZeroFormsOnlyAdvanceThePc : (Instr.lui 0 0xABCDE000#32).dest = some 0 ∧
    (Instr.addi 0 1 5#32).dest = some 0 ∧ (Instr.add 0 1 2).dest = some 0 ∧ (Instr.sub 0 1 2).dest = some 0 := by decide

theorem witness_ArithmeticChangesOnlyDestinationAndPc :
    (Instr.sub 31 1 2).dest = some 31 ∧ (Instr.lui 0 0#32).dest = some 0 ∧ State.reset.pcUnit = .byte ∧
    (State.start .word ecallMemory).pcUnit = .word := ⟨rfl, rfl, rfl, rfl⟩

theorem witness_ArithmeticIsModulo2ToThe32 : (1 : RegIdx) ≠ 0 := by decide

theorem witness_AddiOfTheNegatedImmediateUndoesIt : ∀ k ∈ [(-2047 : Int), 2047], -2047 ≤ k ∧ k ≤ 2047 ∧ (2 : RegIdx) ≠ 0 ∧
    ∃ t u, exec (.addi 2 1 (BitVec.ofInt 32 k)) State.reset = .next t ∧
      exec (.addi 2 2 (BitVec.ofInt 32 (-k))) t = .next u := by
  intro k hk
  exact ⟨by revert k; decide, by revert k; decide, by decide, _, _, rfl, rfl⟩

theorem witness_LuiThenAddiBuildsAnyConstant : (10 : RegIdx) ≠ 0 := by decide

theorem witness_ResultDependsOnSourcesAlone :
    (Instr.addi 6 5 1#32).dest = some 6 ∧
    (∀ r ∈ (Instr.addi 6 5 1#32).sources, State.reset.readReg r = (atReset 0x13).readReg r) ∧
    (∃ t, exec (.addi 6 5 1#32) State.reset = .next t) ∧ ∃ t, exec (.addi 6 5 1#32) (atReset 0x13) = .next t :=
  ⟨rfl, by decide, ⟨_, rfl⟩, ⟨_, rfl⟩⟩

theorem witness_TranslatorFollowsPcUnit : (0xFFFFFFFC#32).toNat % 4 = 0 := by decide

theorem witness_BoundsCheckComparesTheWordIndex : (0#32).toNat % 4 = 0 ∧ (4#32).toNat % 4 = 0 ∧
    inBounds ecallMemory .byte 0#32 = true ∧ inBounds ecallMemory .byte 4#32 = false ∧
    inBounds ecallMemory .word 0#32 = true ∧ inBounds ecallMemory .word 1#32 = false := by decide

theorem witness_FetchReadsTheWordAtTheByteOffset :
    inBounds ecallMemory .byte 0#32 = true ∧ inBounds ecallMemory .word 0#32 = true := by decide

theorem witness_LoadedWordsAreLittleEndian :
    Memory.load ecallBytes = .ok ecallMemory ∧ 0 % 4 = 0 ∧ 0 + 3 < ecallBytes.length := by decide

theorem witness_WordIsAtItsIndexTimesPcUnit : 0 < ecallMemory.lenWords.val ∧
    ecallMemory.lenWords.val * PcUnit.byte.toNat ≤ (4#32).toNat ∧
    ecallMemory.lenWords.val * PcUnit.word.toNat ≤ (1#32).toNat := by decide

theorem witness_MisalignedImageNeverLoads : [0x73#8, 0#8, 0#8, 0#8, 0#8].length % 4 ≠ 0 := by decide

theorem witness_WholeWordImageLoadsWithinTheBound :
    (ecallBytes.length % 4 = 0 ∧ ecallBytes.length / 4 ≤ 2 ^ 30 - 1) ∧
    ∃ bytes : List Byte, bytes.length % 4 = 0 ∧ 2 ^ 30 - 1 < bytes.length / 4 :=
  ⟨by decide, List.replicate (4 * 2 ^ 30) 0#8, by rw [List.length_replicate]; decide, by rw [List.length_replicate]; decide⟩

theorem witness_MemoriesThatReadAlikeAreEqual : ecallMemory.wf = true ∧
    (∀ a, ecallMemory.readByte a = ecallMemory.readByte a) := ⟨by decide, fun _ => rfl⟩

theorem witness_WithFetchWordIsRunNext : State.reset.mem.wf = true ∧ pcAligned State.reset.pcUnit State.reset.pc = true ∧
    wordIndex State.reset.pcUnit State.reset.pc < 2 ^ 30 - 1 ∧
    decodeWord (BitVec.ofNat 32 0x000012B7) = .instr (.lui 5 0x00001000#32) := by decide

/-- The premises the cycle statements share: RUNNING, an aligned pc, and the word that is fetched. -/
def Ready (w : Nat) : Prop := (atReset w).status = .running ∧ pcAligned (atReset w).pcUnit (atReset w).pc = true ∧
  (atReset w).fetch = some (BitVec.ofNat 32 w)

theorem ready_luiWord : Ready 0xFFFFF0B7 := ⟨rfl, rfl, by decide⟩
theorem ready_addiWord : Ready 0x80008113 := ⟨rfl, rfl, by decide⟩
theorem ready_addWord : Ready 0x002081B3 := ⟨rfl, rfl, by decide⟩
theorem ready_subWord : Ready 0x402081B3 := ⟨rfl, rfl, by decide⟩
theorem ready_ecallWord : Ready 0xFFFFFFF3 := ⟨rfl, rfl, by decide⟩
theorem ready_zeroWord : Ready 0 := ⟨rfl, rfl, by decide⟩

theorem witness_StepRunsTheDecodedInstruction :
    Ready 0x002081B3 ∧ decodeWord (BitVec.ofNat 32 0x002081B3) = .instr (.add 3 1 2) := ⟨ready_addWord, by decide⟩

theorem witness_CycleOnALuiWord :
    Ready 0xFFFFF0B7 ∧ (BitVec.ofNat 32 0xFFFFF0B7).extractLsb' 0 7 = 0b0110111#7 := ⟨ready_luiWord, by decide⟩

theorem witness_CycleOnAnAddiWord : Ready 0x80008113 ∧ (BitVec.ofNat 32 0x80008113).extractLsb' 0 7 = 0b0010011#7 ∧
    (BitVec.ofNat 32 0x80008113).extractLsb' 12 3 = 0b000#3 ∧
    (1 : RegIdx).val = ((BitVec.ofNat 32 0x80008113).extractLsb' 15 5).toNat := ⟨ready_addiWord, by decide⟩

theorem witness_CycleOnAnAddOrSubWord :
    (Ready 0x002081B3 ∧ (BitVec.ofNat 32 0x002081B3).extractLsb' 0 7 = 0b0110011#7 ∧
      (BitVec.ofNat 32 0x002081B3).extractLsb' 12 3 = 0b000#3 ∧
      (BitVec.ofNat 32 0x002081B3).extractLsb' 25 7 = 0b0000000#7 ∧
      (1 : RegIdx).val = ((BitVec.ofNat 32 0x002081B3).extractLsb' 15 5).toNat ∧
      (2 : RegIdx).val = ((BitVec.ofNat 32 0x002081B3).extractLsb' 20 5).toNat) ∧
    (Ready 0x402081B3 ∧ (BitVec.ofNat 32 0x402081B3).extractLsb' 0 7 = 0b0110011#7 ∧
      (BitVec.ofNat 32 0x402081B3).extractLsb' 12 3 = 0b000#3 ∧
      (BitVec.ofNat 32 0x402081B3).extractLsb' 25 7 = 0b0100000#7 ∧
      (1 : RegIdx).val = ((BitVec.ofNat 32 0x402081B3).extractLsb' 15 5).toNat ∧
      (2 : RegIdx).val = ((BitVec.ofNat 32 0x402081B3).extractLsb' 20 5).toNat) :=
  ⟨⟨ready_addWord, by decide⟩, ⟨ready_subWord, by decide⟩⟩

theorem witness_CycleOnAnEcallWordHalts :
    Ready 0xFFFFFFF3 ∧ (BitVec.ofNat 32 0xFFFFFFF3).extractLsb' 0 7 = 0b1110011#7 := ⟨ready_ecallWord, by decide⟩

/-- Past the one word of an image, at its first word, and past a last word: both clauses at their boundary. -/
theorem witness_FaultsAreTakenInTheOrderOfTheCycle :
    (State.reset.status = .running ∧ pcAligned State.reset.pcUnit State.reset.pc = true ∧
      State.reset.mem.lenWords.val ≤ State.reset.pc.toNat / State.reset.pcUnit.toNat) ∧
    (Ready 0 ∧ (atReset 0).pc.toNat / (atReset 0).pcUnit.toNat < (atReset 0).mem.lenWords.val ∧
      decodeWord (BitVec.ofNat 32 0) = .unrecognized) := ⟨by decide, ready_zeroWord, by decide⟩

theorem witness_StatusAfterAStepSaysWhy : statusAfterStep (atReset 0x13) = some .running ∧
    statusAfterStep (atReset 0x73) = some .halted ∧ statusAfterStep State.reset = some (.faultFetchOob 0#32) ∧
    statusAfterStep (atReset 0xFFFFFFFF) = some (.faultUnrecognized 0xFFFFFFFF#32 0#32) := by decide

theorem witness_StepIsTotalOnRunningStates :
    State.reset.status = .running ∧ pcAligned State.reset.pcUnit State.reset.pc = true := by decide

theorem witness_TerminalStatesHaveNoStep : State.reset.halt.status ≠ .running ∧
    (State.reset.raise (.fetchOutOfBounds 0#32)).status ≠ .running ∧
    (State.reset.raise (.unrecognizedInstruction 0#32 0#32)).status ≠ .running := by decide

theorem witness_OnlyAMisalignedPcIsRefused :
    ((({ State.reset with pc := 1#32 } : State).status = .running ∧ ({ State.reset with pc := 1#32 } : State).pcUnit = .byte ∧
        (1#32).toNat % 4 ≠ 0) ∧
      (({ State.reset with pc := 0xFFFFFFFF#32 } : State).status = .running ∧
        ({ State.reset with pc := 0xFFFFFFFF#32 } : State).pcUnit = .byte ∧ (0xFFFFFFFF#32).toNat % 4 ≠ 0)) ∧
    step { State.reset with pc := 2#32 } = .refused (.misalignedPc 2#32) := ⟨by decide, rfl⟩

theorem witness_EveryFetchSeesTheImageAsLoaded : ∃ t, run 1 (atReset 0x13) = .next t := ⟨_, rfl⟩

theorem witness_InvHoldsAtResetAndAtEveryStart : Memory.load ecallBytes = .ok ecallMemory := by decide

/-- The reset state with one word placed satisfies the invariant. -/
theorem atReset_inv (w : Nat) : (atReset w).Inv where
  canonical := placeWord_wf 0 (tableWord 32 w) rfl
  aligned := fun _ => rfl
  bounded := fun _ => Nat.zero_le _
  haltedAtEcall := fun h => nomatch h
  oobAtEnd := fun _ h => nomatch h
  unrecognizedWord := fun _ _ h => nomatch h

theorem witness_EveryStepKeepsInv : (atReset 0x000012B7).Inv ∧ ∃ t, step (atReset 0x000012B7) = .next t :=
  ⟨atReset_inv _, _, rfl⟩

theorem witness_ThePcOnlyMovesUpByOneUnit : (atReset 0x000012B7).Inv ∧
    ∃ t, step (atReset 0x000012B7) = .next t ∧ t.status = .running := ⟨atReset_inv _, _, rfl, rfl⟩

theorem witness_ThePcCountsRetiredInstructions : Memory.load [0x13#8, 0#8, 0#8, 0#8] = .ok ⟨[(0, 0x13#8)], 1⟩ ∧
    ∃ t, run 1 (State.start .byte ⟨[(0, 0x13#8)], 1⟩) = .next t ∧ t.status = .running := ⟨by decide, _, rfl, rfl⟩

theorem witness_EveryRunEndsWithinLenWordsPlusOneCycles : (atReset 0x13).Inv ∧ (atReset 0x13).status = .running :=
  ⟨atReset_inv _, rfl⟩

/-- P4, P1's end and P3's: each outcome occurs, so each clause has a case. -/
theorem witness_EveryLoadedImageHasATrueOutcome : Memory.load ecallBytes = .ok ecallMemory ∧
    execute (State.start .byte ⟨[], 0⟩) = some (.faulted (.fetchOutOfBounds 0#32)) ∧
    execute (State.start .byte ⟨[], 1⟩) = some (.faulted (.unrecognizedInstruction 0#32 0#32)) ∧
    execute (State.start .byte ecallMemory) = some (.halted ⟨Vector.replicate 32 0#32, 0#32⟩) := by decide

theorem witness_BytesAppendedToAHaltingImageMayBeAnything : HaltsWith .byte ecallBytes (fun q => q.pc = 0#32) ∧
    (ecallBytes ++ [0#8, 0#8, 0#8, 0#8]).length % 4 = 0 ∧
    (ecallBytes ++ [0#8, 0#8, 0#8, 0#8]).length / 4 ≤ 2 ^ 30 - 1 :=
  ⟨⟨ecallMemory, ⟨Vector.replicate 32 0#32, 0#32⟩, by decide, by decide, rfl⟩, by decide, by decide⟩

/-- The halting word is the last of `pre`, and the word behind it is unrecognized or is another (2.6). -/
theorem witness_WordsBehindTheHaltingEcallMayBeAnything :
    HaltsWith .byte (ecallBytes ++ [0#8, 0#8, 0#8, 0#8])
      (fun q => 4 * (q.pc.toNat / PcUnit.byte.toNat) + 4 ≤ ecallBytes.length ∧ q.pc = 0#32) ∧
    (ecallBytes ++ [0xFF#8, 0xFF#8, 0xFF#8, 0xFF#8]).length % 4 = 0 ∧
    (ecallBytes ++ [0xFF#8, 0xFF#8, 0xFF#8, 0xFF#8]).length / 4 ≤ 2 ^ 30 - 1 :=
  ⟨⟨⟨[(0, 0x73#8)], 2⟩, ⟨Vector.replicate 32 0#32, 0#32⟩, by decide, by decide, by decide⟩, by decide, by decide⟩

theorem witness_SnapshotOnlyAfterAHalt : State.reset.halt.status = .halted ∧ State.reset.status ≠ .halted := by decide

end Sys2Proof.Tests
end

section
/-! The register file and the reset state (10_state.md R20, R21, R28). -/

namespace Sys2Proof.Machine

/-- States that hold the same memory and PC_UNIT as data have the same parameters (R26). -/
theorem sameParameters_of_mem_eq {s t : State} (hmem : t.mem = s.mem) (hunit : t.pcUnit = s.pcUnit) :
    SameParameters s t where
  bytes a := by rw [hmem]
  lenWords := by rw [hmem]
  pcUnit := hunit

/-- A register write leaves the parameters of the run (R20, R26). -/
theorem writeReg_sameParameters (s : State) (r : RegIdx) (v : Word) : SameParameters s (s.writeReg r v) :=
  sameParameters_of_mem_eq (writeReg_mem s r v) (writeReg_pcUnit s r v)

/-- The reset state is the start of a run of the empty image with PC_UNIT = 4 (logs 1, 2). -/
theorem reset_eq_start : State.reset = State.start .byte { cells := [], lenWords := 0 } := rfl

/-- Settles O9: the read-after-write laws of the register file, and the frame of a write. -/
theorem writeReplacesOneRegister : Obligations.WriteReplacesOneRegister := by
  unfold Obligations.WriteReplacesOneRegister
  refine ⟨fun s r v hr => ⟨?written, ?others, ?pc, ?status, ?parameters⟩, ?discarded⟩
  case written => exact readReg_writeReg_same s r v hr
  case others => exact fun r' hne => readReg_writeReg_other s r r' v hne
  case pc => exact writeReg_pc s r v
  case status => exact writeReg_status s r v
  case parameters => exact writeReg_sameParameters s r v
  case discarded => exact writeReg_zero

/-- Settles O8: register 0 has no storage, so it reads zero in every state, before and after the instruction alike, and
a write to it has nothing to change. -/
theorem registerZeroReadsZeroAroundEveryInstruction : Obligations.RegisterZeroReadsZeroAroundEveryInstruction :=
  fun _ s t _ => ⟨readReg_zero s, readReg_zero t, writeReg_zero s⟩

/-- Settles O41: every start is all zero and RUNNING, and the reset state is a start. -/
theorem resetStateIsAllZeroAndRunning : Obligations.ResetStateIsAllZeroAndRunning := by
  unfold Obligations.ResetStateIsAllZeroAndRunning
  constructor
  case left =>
    rw [reset_eq_start]
    exact ⟨start_readReg _ _, start_pc _ _, start_status _ _, rfl⟩
  case right =>
    exact fun u m =>
      ⟨start_readReg u m, start_pc u m, start_status u m, rfl, start_mem u m, start_pcUnit u m⟩

end Sys2Proof.Machine
end

section
/-! The instruction memory (20_memory.md R31, R33, R35, R38, R44). -/

namespace Sys2Proof.Machine

/-! ### The word of four bytes (R33) -/

/-- A concatenation as a number: the high part counts in units of `2 ^ n`. -/
theorem toNat_append_add {k n : Nat} (a : BitVec k) (b : BitVec n) :
    (a ++ b).toNat = a.toNat * 2 ^ n + b.toNat := by
  rw [BitVec.toNat_append, ← Nat.shiftLeft_add_eq_or_of_lt b.isLt, Nat.shiftLeft_eq]

theorem wordOfBytes_toNat (b0 b1 b2 b3 : Byte) :
    (wordOfBytes b0 b1 b2 b3).toNat =
      b0.toNat + 2 ^ 8 * b1.toNat + 2 ^ 16 * b2.toNat + 2 ^ 24 * b3.toNat := by
  unfold wordOfBytes
  simp only [toNat_append_add]
  omega

/-- R33: MemRead at an aligned offset is the word of the four bytes read there. -/
theorem readWord_of_readByte {m : Memory} {a : Nat} {b0 b1 b2 b3 : Byte} (h4 : a % 4 = 0)
    (h0 : m.readByte a = some b0) (h1 : m.readByte (a + 1) = some b1) (h2 : m.readByte (a + 2) = some b2)
    (h3 : m.readByte (a + 3) = some b3) : m.readWord a = some (wordOfBytes b0 b1 b2 b3) := by
  simp only [Memory.readWord, h4, if_true, h0, h1, h2, h3]

/-- Settles O24: byte offset `k` of a loaded image is its byte `k`, and MemRead makes the little-endian word. -/
theorem loadedWordsAreLittleEndian : Obligations.LoadedWordsAreLittleEndian := by
  unfold Obligations.LoadedWordsAreLittleEndian
  intro bytes m a hload h4 ha
  obtain ⟨-, hbyte⟩ := load_ok hload
  have byteAt : ∀ k ≤ 3, ∃ b, bytes[a + k]? = some b := fun k hk =>
    ⟨bytes[a + k], List.getElem?_eq_getElem _⟩
  obtain ⟨b0, h0⟩ := byteAt 0 (by omega)
  obtain ⟨b1, h1⟩ := byteAt 1 (by omega)
  obtain ⟨b2, h2⟩ := byteAt 2 (by omega)
  obtain ⟨b3, h3⟩ := byteAt 3 (by omega)
  exact ⟨wordOfBytes b0 b1 b2 b3, b0, b1, b2, b3,
    readWord_of_readByte h4 ((hbyte _).trans h0) ((hbyte _).trans h1) ((hbyte _).trans h2) ((hbyte _).trans h3),
    h0, h1, h2, h3, wordOfBytes_toNat b0 b1 b2 b3⟩

/-! ### The fetch (R35, R38) -/

/-- R38: past the bounds check, the fetch is MemRead at the byte offset. -/
theorem fetchWord_of_inBounds {m : Memory} {u : PcUnit} {pc : Word} (h : inBounds m u pc = true) :
    fetchWord m u pc = m.readWord (byteOffset u pc) := if_pos h

/-- Settles O23: a fetch in bounds answers a word, and it is MemRead at the byte offset. -/
theorem fetchReadsTheWordAtTheByteOffset : Obligations.FetchReadsTheWordAtTheByteOffset := by
  unfold Obligations.FetchReadsTheWordAtTheByteOffset
  intro m u pc hin
  obtain ⟨w, hw⟩ := Option.isSome_iff_exists.mp ((fetchWord_isSome m u pc).trans hin)
  exact ⟨w, hw, (fetchWord_of_inBounds hin).symm.trans hw⟩

theorem unit_le_four (u : PcUnit) : u.toNat ≤ 4 := by cases u <;> decide

/-- R36 undoes R35: `i * PC_UNIT` is a pc, by D3's bound, and its word index is `i`. -/
theorem wordIndex_of_index {m : Memory} (u : PcUnit) {i : Nat} (hi : i < m.lenWords.val) :
    wordIndex u (BitVec.ofNat 32 (i * u.toNat)) = i := by
  have hfits : i * u.toNat < 2 ^ 32 := by
    have hmul : i * u.toNat ≤ i * 4 := Nat.mul_le_mul_left i (unit_le_four u)
    have hlen := lenWords_le m
    omega
  rw [wordIndex, BitVec.toNat_ofNat, Nat.mod_eq_of_lt hfits, Nat.mul_div_cancel i (unit_pos u)]

/-- Settles O25: the translator takes `i * PC_UNIT` to word `i`, and a pc from LEN_WORDS * PC_UNIT on to an index
outside the image. -/
theorem wordIsAtItsIndexTimesPcUnit : Obligations.WordIsAtItsIndexTimesPcUnit := by
  unfold Obligations.WordIsAtItsIndexTimesPcUnit
  refine fun m u => ⟨fun i hi => ?inside, fun pc hpc => ?outside⟩
  case inside =>
    have hindex := wordIndex_of_index u hi
    have hin : inBounds m u (BitVec.ofNat 32 (i * u.toNat)) = true := by
      rwa [inBounds_eq_true, hindex]
    have hfetch : fetchWord m u (BitVec.ofNat 32 (i * u.toNat)) = m.readWord (4 * i) := by
      rw [fetchWord_of_inBounds hin, byteOffset, hindex]
    exact ⟨hfetch, by rw [← hfetch, fetchWord_isSome, hin]⟩
  case outside =>
    rw [fetchWord_eq_none, inBounds_eq_false]
    exact (Nat.le_div_iff_mul_le (unit_pos u)).mpr hpc

/-! ### Runs keep the image (R44) -/

/-- A run leaves the image and PC_UNIT as data (R26), because every step does. -/
theorem run_mem : ∀ {k : Nat} {s t : State}, run k s = .next t → t.mem = s.mem ∧ t.pcUnit = s.pcUnit
  | 0, s, t, h => by cases h; exact ⟨rfl, rfl⟩
  | k + 1, s, t, h => by
    obtain ⟨-, rfl⟩ | ⟨-, s', hstep, hrun⟩ := run_succ_cases h
    · exact ⟨rfl, rfl⟩
    · obtain ⟨hmem, hunit⟩ := step_mem hstep
      obtain ⟨ihmem, ihunit⟩ := run_mem hrun
      exact ⟨ihmem.trans hmem, ihunit.trans hunit⟩

/-- Settles O40: a run keeps the image and PC_UNIT as data, and a fetch reads nothing else. -/
theorem everyFetchSeesTheImageAsLoaded : Obligations.EveryFetchSeesTheImageAsLoaded := by
  unfold Obligations.EveryFetchSeesTheImageAsLoaded
  intro k s t hrun
  obtain ⟨hmem, hunit⟩ := run_mem hrun
  exact ⟨sameParameters_of_mem_eq hmem hunit, fun pc => by rw [hmem, hunit]⟩

/-! ### The load's check (R31) -/

theorem load_eq_misalignedImage (bytes : List Byte) :
    Memory.load bytes = .misalignedImage ↔ bytes.length % 4 ≠ 0 := by
  unfold Memory.load
  split
  · next h4 => split <;> simp [h4]
  · next h4 => simp [h4]

/-- Settles O26: the load answers MISALIGNED_IMAGE, and a run that halts starts from a load that succeeded. -/
theorem misalignedImageNeverLoads : Obligations.MisalignedImageNeverLoads := by
  unfold Obligations.MisalignedImageNeverLoads
  refine fun bytes => ⟨load_eq_misalignedImage bytes, ?_⟩
  rintro h4 u P ⟨m, _, hload, -, -⟩
  rw [(load_eq_misalignedImage bytes).mpr h4] at hload
  cases hload

end Sys2Proof.Machine
end

section
/-! The Decoder and the encoder (30_encoding.md R48 to R59). -/

namespace Sys2Proof

/-! ### A word is the concatenation of its format's fields (R48) -/

theorem uFormat_of_fields (w : Word) :
    w.extractLsb' 12 20 ++ w.extractLsb' 7 5 ++ w.extractLsb' 0 7 = w := by
  rw [BitVec.extractLsb'_append_extractLsb'_eq_extractLsb' (by rfl),
    BitVec.extractLsb'_append_extractLsb'_eq_extractLsb' (by rfl)]
  exact BitVec.extractLsb'_eq_self

theorem iFormat_of_fields (w : Word) :
    w.extractLsb' 20 12 ++ w.extractLsb' 15 5 ++ w.extractLsb' 12 3 ++ w.extractLsb' 7 5 ++ w.extractLsb' 0 7 = w := by
  rw [BitVec.extractLsb'_append_extractLsb'_eq_extractLsb' (by rfl),
    BitVec.extractLsb'_append_extractLsb'_eq_extractLsb' (by rfl)]
  exact uFormat_of_fields w

theorem rFormat_of_fields (w : Word) :
    w.extractLsb' 25 7 ++ w.extractLsb' 20 5 ++ w.extractLsb' 15 5 ++ w.extractLsb' 12 3 ++ w.extractLsb' 7 5 ++
      w.extractLsb' 0 7 = w := by
  rw [BitVec.extractLsb'_append_extractLsb'_eq_extractLsb' (by rfl)]
  exact iFormat_of_fields w

/-- The R format in the Decoder's own fields. -/
theorem rFormat_of_regFields (w : Word) :
    funct7Field w ++ bitsOfReg (rs2Field w) ++ bitsOfReg (rs1Field w) ++ funct3Field w ++ bitsOfReg (rdField w) ++
      opcodeField w = w := by
  rw [rdField, rs1Field, rs2Field, bitsOfReg_regOfBits, bitsOfReg_regOfBits, bitsOfReg_regOfBits]
  exact rFormat_of_fields w

/-! ### The register numbers read back from an R-format word (R48, R51) -/

section RFormat
variable (g : BitVec 7) (t s : BitVec 5) (f : BitVec 3) (d : BitVec 5) (o : BitVec 7) (r : RegIdx)

theorem rFormat_rdField : rdField (g ++ t ++ s ++ f ++ bitsOfReg r ++ o) = r := by
  rw [rdField, rFormat_rd, regOfBits_bitsOfReg]

theorem rFormat_rs1Field : rs1Field (g ++ t ++ bitsOfReg r ++ f ++ d ++ o) = r := by
  rw [rs1Field, rFormat_rs1, regOfBits_bitsOfReg]

theorem rFormat_rs2Field : rs2Field (g ++ bitsOfReg r ++ s ++ f ++ d ++ o) = r := by
  rw [rs2Field, rFormat_rs2, regOfBits_bitsOfReg]

end RFormat

/-! ### The immediates: what the encoder's field holds, and what the Decoder makes of it (R49, R50) -/

/-- The low part of a sign extension is what was extended. -/
theorem extract_signExtend {n k : Nat} (x : BitVec n) (h : n ≤ k) : (x.signExtend k).extractLsb' 0 n = x := by
  apply BitVec.eq_of_getLsbD_eq
  intro i hi
  have hk : i < k := by omega
  rw [BitVec.getLsbD_extractLsb', BitVec.getLsbD_signExtend]
  simp [hi, hk]

@[simp] theorem immU_upper (w : Word) : (immU w).extractLsb' 12 20 = w.extractLsb' 12 20 :=
  BitVec.extractLsb'_append_eq_left

@[simp] theorem immU_lower (w : Word) : (immU w).extractLsb' 0 12 = 0#12 := extract_low _ _

@[simp] theorem immI_lower (w : Word) : (immI w).extractLsb' 0 12 = w.extractLsb' 20 12 :=
  extract_signExtend _ (by decide)

theorem immUWellFormed_immU (w : Word) : immUWellFormed (immU w) = true := by
  simp [immUWellFormed]

theorem immIWellFormed_immI (w : Word) : immIWellFormed (immI w) = true := by
  rw [immIWellFormed, immI_lower, immI, beq_self_eq_true]

/-- R49 backwards: the upper 20 bits of a well-formed LUI immediate determine it. -/
theorem immU_of_wf {imm : Word} (h : immUWellFormed imm = true) : imm.extractLsb' 12 20 ++ 0#12 = imm := by
  rw [immUWellFormed, beq_iff_eq] at h
  rw [← h]
  exact BitVec.extractLsb'_append_extractLsb' (w := 20)

/-- R50 backwards: the low 12 bits of a well-formed ADDI immediate determine it. -/
theorem immI_of_wf {imm : Word} (h : immIWellFormed imm = true) : (imm.extractLsb' 0 12).signExtend 32 = imm :=
  (beq_iff_eq.mp h).symm

/-! ### Decoding what was encoded (R59) -/

theorem decodeWord_encode_lui (rd : RegIdx) {imm : Word} (h : immUWellFormed imm = true) :
    decodeWord (encode (.lui rd imm)) = .instr (.lui rd imm) := by
  rw [encode, decodeWord_lui (uFormat_opcode ..), rdField, uFormat_rd, regOfBits_bitsOfReg, immU, uFormat_imm,
    immU_of_wf h]

theorem decodeWord_encode_addi (rd rs1 : RegIdx) {imm : Word} (h : immIWellFormed imm = true) :
    decodeWord (encode (.addi rd rs1 imm)) = .instr (.addi rd rs1 imm) := by
  rw [encode, decodeWord_addi (iFormat_opcode ..) (iFormat_funct3 ..), rdField, iFormat_rd, regOfBits_bitsOfReg,
    rs1Field, iFormat_rs1, regOfBits_bitsOfReg, immI, iFormat_imm, immI_of_wf h]

theorem decodeWord_encode_add (rd rs1 rs2 : RegIdx) :
    decodeWord (encode (.add rd rs1 rs2)) = .instr (.add rd rs1 rs2) := by
  rw [encode, decodeWord_add (rFormat_opcode ..) (rFormat_funct3 ..) (rFormat_funct7 ..), rFormat_rdField,
    rFormat_rs1Field, rFormat_rs2Field]

theorem decodeWord_encode_sub (rd rs1 rs2 : RegIdx) :
    decodeWord (encode (.sub rd rs1 rs2)) = .instr (.sub rd rs1 rs2) := by
  rw [encode, decodeWord_sub (rFormat_opcode ..) (rFormat_funct3 ..) (rFormat_funct7 ..), rFormat_rdField,
    rFormat_rs1Field, rFormat_rs2Field]

theorem decodeWord_encode_ecall : decodeWord (encode .ecall) = .instr .ecall :=
  decodeWord_ecall (extract_low 0#25 opSystem)

/-- R59: a well-formed instruction is what its word decodes to. -/
theorem decodeWord_encode {i : Instr} (h : i.wf = true) : decodeWord (encode i) = .instr i := by
  cases i with
  | lui rd imm => exact decodeWord_encode_lui rd h
  | addi rd rs1 imm => exact decodeWord_encode_addi rd rs1 h
  | add rd rs1 rs2 => exact decodeWord_encode_add rd rs1 rs2
  | sub rd rs1 rs2 => exact decodeWord_encode_sub rd rs1 rs2
  | ecall => exact decodeWord_encode_ecall

/-! ### Encoding what was decoded (R59) -/

theorem encode_lui_fields {w : Word} (h : opcodeField w = opLui) : encode (.lui (rdField w) (immU w)) = w := by
  rw [encode, immU_upper, rdField, bitsOfReg_regOfBits, ← h]
  exact uFormat_of_fields w

theorem encode_addi_fields {w : Word} (h : opcodeField w = opImm) (h3 : funct3Field w = funct3Add) :
    encode (.addi (rdField w) (rs1Field w) (immI w)) = w := by
  rw [encode, immI_lower, rdField, rs1Field, bitsOfReg_regOfBits, bitsOfReg_regOfBits, ← h, ← h3]
  exact iFormat_of_fields w

theorem encode_add_fields {w : Word} (h : opcodeField w = opReg) (h3 : funct3Field w = funct3Add)
    (h7 : funct7Field w = funct7Add) : encode (.add (rdField w) (rs1Field w) (rs2Field w)) = w := by
  rw [encode, ← h, ← h3, ← h7, rFormat_of_regFields]

theorem encode_sub_fields {w : Word} (h : opcodeField w = opReg) (h3 : funct3Field w = funct3Add)
    (h7 : funct7Field w = funct7Sub) : encode (.sub (rdField w) (rs1Field w) (rs2Field w)) = w := by
  rw [encode, ← h, ← h3, ← h7, rFormat_of_regFields]

/-- R59: the word of a decoded instruction other than ECALL is what the instruction encodes to. -/
theorem encode_of_decodeWord {w : Word} {i : Instr} (h : decodeWord w = .instr i) (hne : i ≠ .ecall) :
    encode i = w := by
  obtain ⟨hop, rfl⟩ | ⟨hop, h3, rfl⟩ | ⟨hop, h3, h7, rfl⟩ | ⟨hop, h3, h7, rfl⟩ | ⟨-, rfl⟩ := decodeWord_instr_cases h
  · exact encode_lui_fields hop
  · exact encode_addi_fields hop h3
  · exact encode_add_fields hop h3 h7
  · exact encode_sub_fields hop h3 h7
  · exact absurd rfl hne

/-- The Decoder makes well-formed instructions only. -/
theorem wf_of_decodeWord {w : Word} {i : Instr} (h : decodeWord w = .instr i) : i.wf = true := by
  obtain ⟨-, rfl⟩ | ⟨-, -, rfl⟩ | ⟨-, -, -, rfl⟩ | ⟨-, -, -, rfl⟩ | ⟨-, rfl⟩ := decodeWord_instr_cases h
  · exact immUWellFormed_immU w
  · exact immIWellFormed_immI w
  · rfl
  · rfl
  · rfl

/-- Settles O2: each direction is an argument per format, and the MRET word 0x30200073 is an ECALL (R56, C8) that the
encoder answers with 0x00000073. -/
theorem decodeAndEncodeAgree : Obligations.DecodeAndEncodeAgree := by
  unfold Obligations.DecodeAndEncodeAgree
  refine ⟨?encoded, ?wellFormed, ?decoded, ?ecallAlias⟩
  case encoded => exact fun _ => decodeWord_encode
  case wellFormed => exact fun _ _ => wf_of_decodeWord
  case decoded => exact fun _ _ => encode_of_decodeWord
  case ecallAlias => exact ⟨0x30200073#32, by decide⟩

/-! ### The Decoder's conditions on the fields (R53, R54, R56) -/

/-- R54: under ADDI's opcode no other funct3 is an instruction. -/
theorem decodeWord_opImm_unrecognized {w : Word} (h : opcodeField w = opImm) (h3 : funct3Field w ≠ funct3Add) :
    decodeWord w = .unrecognized := by
  obtain ⟨hLui, -, hReg, -, hSystem, -, -⟩ := opcodes_differ
  simp [decodeWord, h, h3, hLui, hReg.symm, hSystem.symm]

/-- Settles O3: the clauses are the Decoder's cases at the word's own register fields. -/
theorem luiAddiEcallWordsDecodeByTheirFields : Obligations.LuiAddiEcallWordsDecodeByTheirFields := by
  unfold Obligations.LuiAddiEcallWordsDecodeByTheirFields
  exact fun w => ⟨rdField w, rs1Field w, rfl, rfl, decodeWord_lui, decodeWord_addi, decodeWord_opImm_unrecognized,
    decodeWord_ecall⟩

/-! ### The immediates of decoded words (R49, R50) -/

theorem imm_of_decodeWord_lui {w : Word} {rd : RegIdx} {imm : Word} (h : decodeWord w = .instr (.lui rd imm)) :
    imm = immU w := by
  obtain ⟨-, ⟨⟩⟩ | ⟨-, -, ⟨⟩⟩ | ⟨-, -, -, ⟨⟩⟩ | ⟨-, -, -, ⟨⟩⟩ | ⟨-, ⟨⟩⟩ := decodeWord_instr_cases h
  rfl

theorem imm_of_decodeWord_addi {w : Word} {rd rs1 : RegIdx} {imm : Word}
    (h : decodeWord w = .instr (.addi rd rs1 imm)) : imm = immI w := by
  obtain ⟨-, ⟨⟩⟩ | ⟨-, -, ⟨⟩⟩ | ⟨-, -, -, ⟨⟩⟩ | ⟨-, -, -, ⟨⟩⟩ | ⟨-, ⟨⟩⟩ := decodeWord_instr_cases h
  rfl

/-- The mask of the LUI immediate keeps the upper 20 bits. -/
theorem immU_eq_and_mask (w : Word) : immU w = w &&& 0xFFFFF000#32 := by
  calc immU w
      = (w.extractLsb' 12 20 ++ w.extractLsb' 0 12) &&& (BitVec.allOnes 20 ++ 0#12) := by
        rw [BitVec.and_append, BitVec.and_allOnes, BitVec.and_zero, immU]
    _ = w &&& 0xFFFFF000#32 := by
        rw [BitVec.extractLsb'_append_extractLsb'_eq_extractLsb' (by rfl)]
        exact congrArg (· &&& 0xFFFFF000#32) (BitVec.extractLsb'_eq_self (x := w))

theorem immU_eq_shiftLeft (w : Word) : immU w = (w.extractLsb' 12 20).setWidth 32 <<< 12 := by
  calc immU w
      = (w.extractLsb' 12 20 ++ 0#12).setWidth 32 := (BitVec.setWidth_eq _).symm
    _ = (w.extractLsb' 12 20).setWidth 32 <<< 12 := by
        rw [BitVec.setWidth_append_eq_shiftLeft_setWidth_or, BitVec.setWidth_zero, BitVec.or_zero]

/-- Settles O6: the decoded immediate is imm_U, in its three forms. -/
theorem luiImmediateIsTheTopTwentyBits : Obligations.LuiImmediateIsTheTopTwentyBits := by
  unfold Obligations.LuiImmediateIsTheTopTwentyBits
  intro w rd imm h
  obtain rfl := imm_of_decodeWord_lui h
  exact ⟨immU_eq_and_mask w, rfl, immU_eq_shiftLeft w⟩

theorem immI_toInt (w : Word) : (immI w).toInt = (w.extractLsb' 20 12).toInt :=
  BitVec.toInt_signExtend_of_le (by decide)

/-- Bits 31:11 of the ADDI immediate are the word's sign bit: bit 11 is the extended field's own top bit, the bits
above it are its copies. -/
theorem immI_getLsbD (w : Word) {k : Nat} (hlow : 11 ≤ k) (hhigh : k < 32) : (immI w).getLsbD k = w.getLsbD 31 := by
  have hmsb : (w.extractLsb' 20 12).msb = w.getLsbD 31 := by
    rw [BitVec.msb_eq_getLsbD_last, BitVec.getLsbD_extractLsb']
    rfl
  rw [immI, BitVec.getLsbD_signExtend, hmsb]
  obtain rfl | hk : k = 11 ∨ ¬ k < 12 := by omega
  · simp
  · simp [hhigh, hk]

/-- Settles O7: the decoded immediate is imm_I; its range is that of a signed 12-bit number. -/
theorem addiImmediateIsSignExtended : Obligations.AddiImmediateIsSignExtended := by
  unfold Obligations.AddiImmediateIsSignExtended
  intro w rd rs1 imm h
  obtain rfl := imm_of_decodeWord_addi h
  rw [immI_toInt]
  exact ⟨rfl, BitVec.le_toInt _, Int.le_of_lt_add_one BitVec.toInt_lt, immI_lower w, fun k => immI_getLsbD w⟩

end Sys2Proof
end

section
/-! Instructions whose destination is register 0 (30_encoding.md R58). -/

namespace Sys2Proof.Machine

theorem toWord_eq_ite (u : PcUnit) : u.toWord = if u = .byte then 4#32 else 1#32 := by cases u <;> rfl

/-- R58: the write is discarded, so retiring into register 0 is the pc advance alone. -/
theorem exec_of_dest_zero {i : Instr} {s : State} (h : i.dest = some 0) : exec i s = .next s.advance := by
  obtain ⟨rd, v, hdest, hexec⟩ | ⟨rfl, -⟩ := exec_cases i s
  · obtain rfl : rd = 0 := Option.some.inj (hdest.symm.trans h)
    rw [hexec, retire_zero]
  · cases h

/-- Settles O15: such an instruction retires into register 0, and the advance changes the pc alone. -/
theorem rdZeroFormsOnlyAdvanceThePc : Obligations.RdZeroFormsOnlyAdvanceThePc := by
  unfold Obligations.RdZeroFormsOnlyAdvanceThePc
  intro i s h
  rw [exec_of_dest_zero h, State.advance, toWord_eq_ite]

end Sys2Proof.Machine
end

section
/-! The execution cycle: the pc advance of LUI, ADDI, ADD and SUB, and the halting cycle (40_execution_cycle.md R65, R66). -/

namespace Sys2Proof.Machine

/-! ### Instructions with a destination (R65) -/

/-- R63: an instruction with a destination retires into it. -/
theorem exec_of_dest {i : Instr} {rd : RegIdx} (s : State) (h : i.dest = some rd) :
    ∃ v, exec i s = .next (s.retire rd v) := by
  obtain ⟨rd', v, hdest, hexec⟩ | ⟨rfl, -⟩ := exec_cases i s
  · obtain rfl : rd' = rd := Option.some.inj (hdest.symm.trans h)
    exact ⟨v, hexec⟩
  · cases h

/-- R20 and R65: retiring into `rd` leaves every other register. -/
theorem retire_readReg_other (s : State) {rd r : RegIdx} (v : Word) (h : r ≠ rd) :
    (s.retire rd v).readReg r = s.readReg r := by
  rw [retire_readReg, if_neg fun hr => h hr.1]

/-- Retiring leaves the parameters of the run (R26). -/
theorem retire_sameParameters (s : State) (rd : RegIdx) (v : Word) : SameParameters s (s.retire rd v) :=
  sameParameters_of_mem_eq (retire_mem s rd v) (retire_pcUnit s rd v)

/-- Settles O16: each of the four retires into its destination, and the advance by PC_UNIT does not read the value or the
register number. -/
theorem arithmeticChangesOnlyDestinationAndPc : Obligations.ArithmeticChangesOnlyDestinationAndPc := by
  unfold Obligations.ArithmeticChangesOnlyDestinationAndPc
  intro i rd s hdest
  obtain ⟨v, hexec⟩ := exec_of_dest s hdest
  obtain ⟨hbytes, hlen, hunit⟩ := retire_sameParameters s rd v
  refine ⟨s.retire rd v, hexec, ?byteUnit, ?wordUnit, fun r => retire_readReg_other s v, retire_status s rd v,
    hbytes, hlen, hunit⟩
  case byteUnit => intro hu; rw [retire_pc, hu]; rfl
  case wordUnit => intro hu; rw [retire_pc, hu]; rfl

/-! ### The halting cycle (R66, R78) -/

/-- R62: the cycle on a fetched word that is an instruction is the dispatch on it. -/
theorem step_of_decodeWord {s : State} {w : Word} {i : Instr} (hrun : s.status = .running)
    (hal : pcAligned s.pcUnit s.pc = true) (hfetch : s.fetch = some w) (hdec : decodeWord w = .instr i) :
    step s = exec i s := by
  have hlive : ¬ s.status.terminal = true := by simp [hrun]
  rw [step, cycle, if_neg hlive, if_pos hal, runningCycle, hfetch]
  simp only [hdec]

/-- Halting leaves the parameters of the run (R26). -/
theorem halt_sameParameters (s : State) : SameParameters s s.halt :=
  sameParameters_of_mem_eq (halt_mem s) (halt_pcUnit s)

/-- R67: a halted state is where every run from it ends. -/
theorem run_halt (s : State) (k : Nat) : run k s.halt = .next s.halt :=
  run_terminal (by rw [halt_status]; decide) k

/-- Settles O34: the Decoder reads ECALL from the low 7 bits alone (R56), and ECALL's cycle is `halt`, which no run leaves. -/
theorem cycleOnAnEcallWordHalts : Obligations.CycleOnAnEcallWordHalts := by
  unfold Obligations.CycleOnAnEcallWordHalts
  intro s w hrun hal hfetch hop
  have hstep : step s = .next s.halt := step_of_decodeWord hrun hal hfetch (decodeWord_ecall hop)
  exact ⟨s.halt, hstep, halt_status s, halt_pc s, halt_readReg s, halt_sameParameters s, run_halt s⟩

end Sys2Proof.Machine
end

section
/-! LUI (41_lui.md R71): its meaning, and the cycle on a LUI word. -/

namespace Sys2Proof.Machine

/-- R71: LUI retires its immediate, and no operand is read. -/
theorem exec_lui (rd : RegIdx) (imm : Word) (s : State) : exec (.lui rd imm) s = .next (s.retire rd imm) := rfl

/-- R47, R51: the register that w[11:7] names. -/
theorem eq_rdField_iff (r : RegIdx) (w : Word) : r = rdField w ↔ r.val = (w.extractLsb' 7 5).toNat := Fin.ext_iff

/-- What every register reads after an instruction retires into the destination of its word (R47, R62). -/
theorem retire_rdField_readReg (s : State) (w v : Word) (r : RegIdx) :
    (s.retire (rdField w) v).readReg r = if r.val = (w.extractLsb' 7 5).toNat ∧ r ≠ 0 then v else s.readReg r := by
  have hwritten : r = rdField w ∧ rdField w ≠ 0 ↔ r.val = (w.extractLsb' 7 5).toNat ∧ r ≠ 0 := by
    rw [← eq_rdField_iff]
    exact and_congr_right fun h => by rw [h]
  rw [retire_readReg]
  exact if_congr hwritten rfl rfl

/-- R65: the pc advance of a retiring instruction, by the value of PC_UNIT. -/
theorem retire_pc_eq_ite (s : State) (rd : RegIdx) (v : Word) :
    (s.retire rd v).pc = s.pc + (if s.pcUnit = .byte then 4#32 else 1#32) := by
  rw [retire_pc, toWord_eq_ite]

/-- R71: the cycle on a LUI word retires imm_U into the word's destination. -/
theorem step_of_lui_word {s : State} {w : Word} (hrun : s.status = .running) (hal : pcAligned s.pcUnit s.pc = true)
    (hfetch : s.fetch = some w) (hop : opcodeField w = opLui) :
    step s = .next (s.retire (rdField w) (w &&& 0xFFFFF000#32)) := by
  rw [step_of_decodeWord hrun hal hfetch (decodeWord_lui hop), exec_lui, immU_eq_and_mask]

/-- Settles O31: LUI's cycle is a retirement, so the frame is that of every retiring instruction. -/
theorem cycleOnALuiWord : Obligations.CycleOnALuiWord := by
  unfold Obligations.CycleOnALuiWord
  intro s w hrun hal hfetch hop
  exact ⟨s.retire (rdField w) (w &&& 0xFFFFF000#32), step_of_lui_word hrun hal hfetch hop,
    retire_rdField_readReg s w _, retire_pc_eq_ite s _ _, (retire_status s _ _).trans hrun,
    retire_sameParameters s _ _⟩

end Sys2Proof.Machine
end

section
/-! ADDI (42_addi.md R73): its meaning, and the cycle on an ADDI word. -/

namespace Sys2Proof.Machine

/-- R73: ADDI retires the sum of its source register and its immediate, modulo 2^32. -/
theorem exec_addi (rd rs1 : RegIdx) (imm : Word) (s : State) :
    exec (.addi rd rs1 imm) s = .next (s.retire rd (s.readReg rs1 + imm)) := rfl

/-- R47, R51: the register that w[19:15] names. -/
theorem eq_rs1Field_iff (r : RegIdx) (w : Word) : r = rs1Field w ↔ r.val = (w.extractLsb' 15 5).toNat := Fin.ext_iff

/-- R73: the cycle on an ADDI word retires x[rs1] + imm_I, both of the word's own fields, into the word's destination. -/
theorem step_of_addi_word {s : State} {w : Word} (hrun : s.status = .running) (hal : pcAligned s.pcUnit s.pc = true)
    (hfetch : s.fetch = some w) (hop : opcodeField w = opImm) (h3 : funct3Field w = funct3Add) :
    step s = .next (s.retire (rdField w) (s.readReg (rs1Field w) + immI w)) := by
  rw [step_of_decodeWord hrun hal hfetch (decodeWord_addi hop h3), exec_addi]

/-- Settles O32: ADDI's cycle is a retirement, so the frame is that of every retiring instruction; the source is read in
the state the cycle starts from (R64), so rd = rs1 is no case of its own. -/
theorem cycleOnAnAddiWord : Obligations.CycleOnAnAddiWord := by
  unfold Obligations.CycleOnAnAddiWord
  intro s w rs1 hrun hal hfetch hop h3 hrs1
  obtain rfl : rs1 = rs1Field w := (eq_rs1Field_iff rs1 w).mpr hrs1
  exact ⟨s.retire (rdField w) (s.readReg (rs1Field w) + immI w), step_of_addi_word hrun hal hfetch hop h3,
    retire_rdField_readReg s w _, retire_pc_eq_ite s _ _, (retire_status s _ _).trans hrun,
    retire_sameParameters s _ _⟩

end Sys2Proof.Machine
end

section
/-! The invariant: every step keeps it, and what it says of a step that goes on (10_state.md R23 to R25,
40_execution_cycle.md R66 and R69). -/

namespace Sys2Proof.Machine

/-! ### The pc within the image (R23, R24) -/

/-- The pc is a multiple of PC_UNIT and not beyond the end of the image: what the invariant says of an observable pc. -/
structure State.PcInImage (s : State) : Prop where
  aligned : pcAligned s.pcUnit s.pc = true
  bounded : s.pc.toNat ≤ s.mem.lenWords.val * s.pcUnit.toNat

theorem pcInImage_of_inv {s : State} (hinv : s.Inv) (h : s.status = .running ∨ s.status = .halted) : s.PcInImage :=
  ⟨hinv.aligned h, hinv.bounded h⟩

theorem start_pcInImage (u : PcUnit) (m : Memory) : (State.start u m).PcInImage where
  aligned := by rw [pcAligned_eq_true, start_pc]; exact Nat.zero_mod _
  bounded := by rw [start_pc]; exact Nat.zero_le _

theorem inBounds_of_fetch {s : State} {w : Word} (h : s.fetch = some w) : inBounds s.mem s.pcUnit s.pc = true := by
  rw [← fetchWord_isSome, ← State.fetch, h, Option.isSome_some]

theorem inBounds_of_fetch_none {s : State} (h : s.fetch = none) : inBounds s.mem s.pcUnit s.pc = false :=
  fetchWord_eq_none.mp h

/-- An aligned pc is its word index in units of PC_UNIT (R36). -/
theorem wordIndex_mul_unit {u : PcUnit} {pc : Word} (hal : pcAligned u pc = true) :
    wordIndex u pc * u.toNat = pc.toNat :=
  Nat.div_mul_cancel (Nat.dvd_of_mod_eq_zero ((pcAligned_eq_true u pc).mp hal))

theorem lenWords_mul_unit_lt (m : Memory) (u : PcUnit) : m.lenWords.val * u.toNat < 2 ^ 32 := by
  have hlen := lenWords_le m
  have hmul : m.lenWords.val * u.toNat ≤ m.lenWords.val * 4 := Nat.mul_le_mul_left _ (unit_le_four u)
  omega

/-- R24: behind an aligned pc in bounds there is room for one more unit. -/
theorem pc_add_unit_le {m : Memory} {u : PcUnit} {pc : Word} (hal : pcAligned u pc = true)
    (hin : inBounds m u pc = true) : pc.toNat + u.toNat ≤ m.lenWords.val * u.toNat := by
  calc pc.toNat + u.toNat
      = (wordIndex u pc + 1) * u.toNat := by rw [Nat.succ_mul, wordIndex_mul_unit hal]
    _ ≤ m.lenWords.val * u.toNat := Nat.mul_le_mul_right _ ((inBounds_eq_true m u pc).mp hin)

theorem toWord_toNat (u : PcUnit) : u.toWord.toNat = u.toNat := by cases u <;> rfl

/-- R24 with D3's bound (log 3): the advance of an aligned pc in bounds does not wrap. -/
theorem advance_pc_toNat {s : State} (hal : pcAligned s.pcUnit s.pc = true)
    (hin : inBounds s.mem s.pcUnit s.pc = true) : s.advance.pc.toNat = s.pc.toNat + s.pcUnit.toNat := by
  have hroom := pc_add_unit_le hal hin
  have hbound := lenWords_mul_unit_lt s.mem s.pcUnit
  rw [advance_pc, BitVec.toNat_add, toWord_toNat, Nat.mod_eq_of_lt (by omega)]

theorem retire_pc_toNat {s : State} (rd : RegIdx) (v : Word) (hal : pcAligned s.pcUnit s.pc = true)
    (hin : inBounds s.mem s.pcUnit s.pc = true) : (s.retire rd v).pc.toNat = s.pc.toNat + s.pcUnit.toNat := by
  rw [retire_pc, ← advance_pc, advance_pc_toNat hal hin]

theorem retire_pcInImage {s : State} (rd : RegIdx) (v : Word) (hal : pcAligned s.pcUnit s.pc = true)
    (hin : inBounds s.mem s.pcUnit s.pc = true) : (s.retire rd v).PcInImage where
  aligned := by
    rw [pcAligned_eq_true, retire_pc_toNat rd v hal hin, retire_pcUnit, Nat.add_mod_right]
    exact (pcAligned_eq_true _ _).mp hal
  bounded := by
    rw [retire_pc_toNat rd v hal hin, retire_mem, retire_pcUnit]
    exact pc_add_unit_le hal hin

/-- R23: a pc within the image and out of bounds is the end of the image. -/
theorem pc_eq_end_of_fetch_none {s : State} (hpc : s.PcInImage) (h : s.fetch = none) :
    s.pc.toNat = s.mem.lenWords.val * s.pcUnit.toNat := by
  have hout := (inBounds_eq_false _ _ _).mp (inBounds_of_fetch_none h)
  exact Nat.le_antisymm hpc.bounded ((Nat.le_div_iff_mul_le (unit_pos s.pcUnit)).mp hout)

/-! ### Each end of a cycle keeps the invariant -/

theorem inv_of_running {s : State} (hwf : s.mem.wf = true) (hrun : s.status = .running) (hpc : s.PcInImage) :
    s.Inv where
  canonical := hwf
  aligned _ := hpc.aligned
  bounded _ := hpc.bounded
  haltedAtEcall h := by simp [hrun] at h
  oobAtEnd _ h := by simp [hrun] at h
  unrecognizedWord _ _ h := by simp [hrun] at h

theorem inv_halt {s : State} {w : Word} (hwf : s.mem.wf = true) (hpc : s.PcInImage) (hfetch : s.fetch = some w)
    (hdec : decodeWord w = .instr .ecall) : s.halt.Inv where
  canonical := hwf
  aligned _ := hpc.aligned
  bounded _ := hpc.bounded
  haltedAtEcall _ := ⟨w, hfetch, hdec⟩
  oobAtEnd _ h := by simp at h
  unrecognizedWord _ _ h := by simp at h

theorem inv_raise_fetchOutOfBounds {s : State} (hwf : s.mem.wf = true) (hpc : s.PcInImage) (hfetch : s.fetch = none) :
    (s.raise (.fetchOutOfBounds s.pc)).Inv where
  canonical := hwf
  aligned h := by simp at h
  bounded h := by simp at h
  haltedAtEcall h := by simp at h
  oobAtEnd a h := by
    cases h
    exact pc_eq_end_of_fetch_none hpc hfetch
  unrecognizedWord _ _ h := by simp [FaultInfo.toStatus] at h

theorem inv_raise_unrecognizedInstruction {s : State} {w : Word} (hwf : s.mem.wf = true) (hfetch : s.fetch = some w)
    (hdec : decodeWord w = .unrecognized) : (s.raise (.unrecognizedInstruction w s.pc)).Inv where
  canonical := hwf
  aligned h := by simp at h
  bounded h := by simp at h
  haltedAtEcall h := by simp at h
  oobAtEnd _ h := by simp [FaultInfo.toStatus] at h
  unrecognizedWord w' p h := by
    cases h
    exact ⟨hfetch, hdec⟩

/-- A step ends the cycle in one of four ways, and each keeps the invariant. -/
theorem step_inv {s t : State} (hinv : s.Inv) (hstep : step s = .next t) : t.Inv := by
  obtain ⟨hrun, hal, hend⟩ := step_cases hstep
  have hpc := pcInImage_of_inv hinv (.inl hrun)
  obtain ⟨hfetch, rfl⟩ | ⟨w, hfetch, hdec, rfl⟩ | ⟨w, hfetch, hdec, rfl⟩ | ⟨w, i, rd, v, hfetch, -, -, rfl⟩ := hend
  · exact inv_raise_fetchOutOfBounds hinv.canonical hpc hfetch
  · exact inv_raise_unrecognizedInstruction hinv.canonical hfetch hdec
  · exact inv_halt hinv.canonical hpc hfetch hdec
  · refine inv_of_running ?_ ((retire_status s rd v).trans hrun) (retire_pcInImage rd v hal (inBounds_of_fetch hfetch))
    rw [retire_mem]
    exact hinv.canonical

/-- Settles O43: the four ends of a cycle keep the canonical memory, and each makes its own status true. -/
theorem everyStepKeepsInv : Obligations.EveryStepKeepsInv :=
  fun _ _ => step_inv

/-! ### A step that goes on (R69) -/

/-- R25: after a step that goes on, the instruction that was fetched has retired. -/
theorem step_running_cases {s t : State} (hstep : step s = .next t) (ht : t.status = .running) :
    ∃ w i rd v, s.fetch = some w ∧ decodeWord w = .instr i ∧ i.dest = some rd ∧ t = s.retire rd v := by
  obtain ⟨-, -, ⟨-, rfl⟩ | ⟨w, -, -, rfl⟩ | ⟨w, -, -, rfl⟩ | hretired⟩ := step_cases hstep
  · cases ht
  · cases ht
  · cases ht
  · exact hretired

/-- R23, R69: a step that goes on moves the pc up by one unit and stays within the image. -/
theorem step_running_pc {s t : State} (hstep : step s = .next t) (ht : t.status = .running) :
    t.pc.toNat = s.pc.toNat + s.pcUnit.toNat ∧ t.PcInImage := by
  obtain ⟨-, hal, -⟩ := step_cases hstep
  obtain ⟨w, i, rd, v, hfetch, -, -, rfl⟩ := step_running_cases hstep ht
  have hin := inBounds_of_fetch hfetch
  exact ⟨retire_pc_toNat rd v hal hin, retire_pcInImage rd v hal hin⟩

/-- Settles O44: the new pc is within the image, which the step keeps. -/
theorem thePcOnlyMovesUpByOneUnit : Obligations.ThePcOnlyMovesUpByOneUnit := by
  unfold Obligations.ThePcOnlyMovesUpByOneUnit
  intro s t _ hstep ht
  obtain ⟨hpc, hin⟩ := step_running_pc hstep ht
  obtain ⟨hmem, hunit⟩ := step_mem hstep
  have hbound := hin.bounded
  rw [hmem, hunit] at hbound
  exact ⟨hpc, hbound⟩

/-- The start of a loaded image's run satisfies the invariant. -/
theorem start_inv (u : PcUnit) {bytes : List Byte} {m : Memory} (hload : Memory.load bytes = .ok m) :
    (State.start u m).Inv :=
  inv_of_running (load_wf hload) rfl (start_pcInImage u m)

/-- Settles O42: a load makes a canonical memory, the empty one is canonical, and a run starts at pc 0. -/
theorem invHoldsAtResetAndAtEveryStart : Obligations.InvHoldsAtResetAndAtEveryStart := by
  unfold Obligations.InvHoldsAtResetAndAtEveryStart
  exact ⟨inv_of_running reset_wf rfl (start_pcInImage .byte _), fun u _ _ => start_inv u⟩

end Sys2Proof.Machine
end

section
/-! The execution cycle: when each end of it is taken (40_execution_cycle.md R61, R62 and R67, 60_exceptions.md R80, R81
and R85, 20_memory.md R40). -/

namespace Sys2Proof.Machine

/-! ### The cycle's equations, in its order -/

theorem step_of_terminal {s : State} (h : s.status ≠ .running) : step s = .fault (.terminated s.status) :=
  if_pos ((terminal_eq_true s.status).mpr h)

theorem step_of_running {s : State} (hrun : s.status = .running) :
    step s = if pcAligned s.pcUnit s.pc then runningCycle s else .refused (.misalignedPc s.pc) :=
  if_neg (by rw [Bool.not_eq_true, terminal_eq_false]; exact hrun)

theorem step_of_misaligned {s : State} (hrun : s.status = .running) (hal : ¬ pcAligned s.pcUnit s.pc = true) :
    step s = .refused (.misalignedPc s.pc) := by
  rw [step_of_running hrun, if_neg hal]

theorem step_of_fetch_none {s : State} (hrun : s.status = .running) (hal : pcAligned s.pcUnit s.pc = true)
    (hfetch : s.fetch = none) : step s = .next (s.raise (.fetchOutOfBounds s.pc)) := by
  rw [step_of_running hrun, if_pos hal, runningCycle, hfetch]

theorem step_of_unrecognized {s : State} {w : Word} (hrun : s.status = .running)
    (hal : pcAligned s.pcUnit s.pc = true) (hfetch : s.fetch = some w) (hdec : decodeWord w = .unrecognized) :
    step s = .next (s.raise (.unrecognizedInstruction w s.pc)) := by
  rw [step_of_running hrun, if_pos hal, runningCycle, hfetch]
  simp only [hdec]

/-- Settles O30: this is the cycle's equation for a decoded instruction. -/
theorem stepRunsTheDecodedInstruction : Obligations.StepRunsTheDecodedInstruction :=
  fun _ _ _ => step_of_decodeWord

/-- R62: the fetch, the Decoder and the dispatch each answer, so the cycle does. -/
theorem step_total {s : State} (hrun : s.status = .running) (hal : pcAligned s.pcUnit s.pc = true) :
    ∃ t, step s = .next t := by
  rcases hfetch : s.fetch with _ | w
  · exact ⟨_, step_of_fetch_none hrun hal hfetch⟩
  rcases hdec : decodeWord w with i | _
  · rw [step_of_decodeWord hrun hal hfetch hdec]
    obtain ⟨rd, v, -, hexec⟩ | ⟨-, hexec⟩ := exec_cases i s
    · exact ⟨_, hexec⟩
    · exact ⟨_, hexec⟩
  · exact ⟨_, step_of_unrecognized hrun hal hfetch hdec⟩

/-- Settles O37: the cycle answers on every path. -/
theorem stepIsTotalOnRunningStates : Obligations.StepIsTotalOnRunningStates :=
  fun _ => step_total

/-- Settles O38: the cycle looks at the status first, and so does a run. -/
theorem terminalStatesHaveNoStep : Obligations.TerminalStatesHaveNoStep :=
  fun _ h => ⟨step_of_terminal h, run_terminal h⟩

/-! ### The faults (R80, R81, R85) -/

theorem raise_sameParameters (s : State) (f : FaultInfo) : SameParameters s (s.raise f) :=
  sameParameters_of_mem_eq (raise_mem s f) (raise_pcUnit s f)

/-- R37: a pc whose word index is not below LEN_WORDS is not fetched. -/
theorem fetch_eq_none_of_le {s : State} (h : s.mem.lenWords.val ≤ wordIndex s.pcUnit s.pc) : s.fetch = none :=
  fetchWord_eq_none.mpr ((inBounds_eq_false _ _ _).mpr h)

/-- Settles O35: the bounds check comes before the fetch, and the fetch before the Decoder. -/
theorem faultsAreTakenInTheOrderOfTheCycle : Obligations.FaultsAreTakenInTheOrderOfTheCycle := by
  unfold Obligations.FaultsAreTakenInTheOrderOfTheCycle
  refine fun s hrun hal => ⟨fun hout => ?outOfBounds, fun w _ hfetch hdec => ?unrecognized⟩
  case outOfBounds =>
    exact ⟨_, step_of_fetch_none hrun hal (fetch_eq_none_of_le hout), rfl, rfl, raise_sameParameters s _⟩
  case unrecognized =>
    exact ⟨_, step_of_unrecognized hrun hal hfetch hdec, rfl, rfl, raise_sameParameters s _⟩

/-- R56: a word that decodes to ECALL has its opcode. -/
theorem opcode_of_decodeWord_ecall {w : Word} (h : decodeWord w = .instr .ecall) : opcodeField w = opSystem := by
  obtain ⟨-, ⟨⟩⟩ | ⟨-, -, ⟨⟩⟩ | ⟨-, -, -, ⟨⟩⟩ | ⟨-, -, -, ⟨⟩⟩ | ⟨hop, -⟩ := decodeWord_instr_cases h
  exact hop

/-- Settles O36: each of the four ends of a cycle has a status of its own. -/
theorem statusAfterAStepSaysWhy : Obligations.StatusAfterAStepSaysWhy := by
  unfold Obligations.StatusAfterAStepSaysWhy
  intro s t hstep
  obtain ⟨hrun, -, ⟨hfetch, rfl⟩ | ⟨w, hfetch, hdec, rfl⟩ | ⟨w, hfetch, hdec, rfl⟩ |
    ⟨w, i, rd, v, hfetch, hdec, hdest, rfl⟩⟩ := step_cases hstep
  · refine ⟨hrun, nofun, nofun, fun a ha => ?_, nofun⟩
    cases ha
    exact ⟨rfl, inBounds_of_fetch_none hfetch⟩
  · refine ⟨hrun, nofun, nofun, nofun, fun w' p hp => ?_⟩
    cases hp
    exact ⟨rfl, hfetch, hdec⟩
  · exact ⟨hrun, nofun, fun _ => ⟨w, hfetch, opcode_of_decodeWord_ecall hdec⟩, nofun, nofun⟩
  · rw [retire_status, hrun]
    exact ⟨rfl, fun _ => ⟨w, i, rd, hfetch, hdec, hdest⟩, nofun, nofun, nofun⟩

/-! ### The refusal (R40) -/

/-- R39 and R40: only under PC_UNIT = 4 is there a pc that is no multiple of PC_UNIT. -/
theorem not_pcAligned_iff (u : PcUnit) (pc : Word) : ¬ pcAligned u pc = true ↔ u = .byte ∧ pc.toNat % 4 ≠ 0 := by
  rw [pcAligned_eq_true]
  cases u with
  | word => simp [PcUnit.toNat, Nat.mod_one]
  | byte => simp [PcUnit.toNat]

/-- Settles O39: a terminal state's step is a fault and an aligned one's is a next state, which leaves the refusal to a
misaligned pc. -/
theorem onlyAMisalignedPcIsRefused : Obligations.OnlyAMisalignedPcIsRefused := by
  unfold Obligations.OnlyAMisalignedPcIsRefused
  refine ⟨fun s hrun hunit hpc => ?refused, fun s r hstep => ?only⟩
  case refused => exact step_of_misaligned hrun ((not_pcAligned_iff _ _).mpr ⟨hunit, hpc⟩)
  case only =>
    by_cases hrun : s.status = .running
    · by_cases hal : pcAligned s.pcUnit s.pc = true
      · obtain ⟨t, ht⟩ := step_total hrun hal
        rw [ht] at hstep
        cases hstep
      · rw [step_of_misaligned hrun hal] at hstep
        cases hstep
        obtain ⟨hunit, hpc⟩ := (not_pcAligned_iff _ _).mp hal
        exact ⟨hrun, hunit, hpc, rfl⟩
    · rw [step_of_terminal hrun] at hstep
      cases hstep

end Sys2Proof.Machine
end

section
/-! What LUI, ADDI, ADD, SUB and ECALL do in every state (41_lui.md to 44_ecall.md). -/

namespace Sys2Proof.Machine

/-! ### The whole effect of a retiring instruction (R62, R65) -/

/-- R75: ADD retires the sum of its source registers, modulo 2^32. -/
theorem exec_add (rd rs1 rs2 : RegIdx) (s : State) :
    exec (.add rd rs1 rs2) s = .next (s.retire rd (s.readReg rs1 + s.readReg rs2)) := rfl

/-- R76: SUB retires its first source register minus its second, modulo 2^32. -/
theorem exec_sub (rd rs1 rs2 : RegIdx) (s : State) :
    exec (.sub rd rs1 rs2) s = .next (s.retire rd (s.readReg rs1 - s.readReg rs2)) := rfl

/-- R78: ECALL halts. -/
theorem exec_ecall (s : State) : exec .ecall s = .next s.halt := rfl

/-- What every register reads after an instruction retires, with the exception of register 0 on the register read. -/
theorem retire_readReg_eq_ite (s : State) (rd r : RegIdx) (v : Word) :
    (s.retire rd v).readReg r = if r = rd ∧ r ≠ 0 then v else s.readReg r := by
  rw [retire_readReg]
  exact if_congr (and_congr_right fun h => by rw [h]) rfl rfl

theorem retire_readReg_same (s : State) {rd : RegIdx} (v : Word) (h : rd ≠ 0) : (s.retire rd v).readReg rd = v := by
  rw [retire_readReg, if_pos ⟨rfl, h⟩]

/-- An instruction that retires `v` into `rd` completes with `v` there, the pc advanced, and nothing else changed. -/
theorem exec_retire_frame {i : Instr} {s : State} {rd : RegIdx} {v : Word} (h : exec i s = .next (s.retire rd v)) :
    ∃ t, exec i s = .next t ∧ (∀ r, t.readReg r = if r = rd ∧ r ≠ 0 then v else s.readReg r) ∧
      t.pc = s.pc + (if s.pcUnit = .byte then 4#32 else 1#32) ∧ t.status = s.status ∧ SameParameters s t :=
  ⟨s.retire rd v, h, fun r => retire_readReg_eq_ite s rd r v, retire_pc_eq_ite s rd v, retire_status s rd v,
    retire_sameParameters s rd v⟩

/-- Settles O10: LUI retires its immediate. -/
theorem luiWritesTheImmediateAndNothingElse : Obligations.LuiWritesTheImmediateAndNothingElse :=
  fun rd imm s => exec_retire_frame (exec_lui rd imm s)

/-- Settles O11: ADDI retires its sum, of the old value of its source. -/
theorem addiWritesTheSumAndNothingElse : Obligations.AddiWritesTheSumAndNothingElse :=
  fun rd rs1 imm s => exec_retire_frame (exec_addi rd rs1 imm s)

/-- Settles O12: ADD retires its sum, of the old values of its sources. -/
theorem addWritesTheSumAndNothingElse : Obligations.AddWritesTheSumAndNothingElse :=
  fun rd rs1 rs2 s => exec_retire_frame (exec_add rd rs1 rs2 s)

/-- Settles O13: SUB retires its difference, of the old values of its sources. -/
theorem subWritesTheDifferenceAndNothingElse : Obligations.SubWritesTheDifferenceAndNothingElse :=
  fun rd rs1 rs2 s => exec_retire_frame (exec_sub rd rs1 rs2 s)

/-- Settles O14: ECALL's meaning is `halt`, which changes the status alone. -/
theorem ecallHaltsAndChangesNothingElse : Obligations.EcallHaltsAndChangesNothingElse :=
  fun s => ⟨s.halt, exec_ecall s, halt_status s, halt_pc s, halt_readReg s, halt_sameParameters s⟩

/-! ### The laws of the results (R72, R74, R77) -/

/-- `x - y` as a natural, with the borrow paid on the left as R77 writes it. -/
theorem sub_toNat (x y : Word) : (x - y).toNat = (x.toNat + 2 ^ 32 - y.toNat) % 2 ^ 32 := by
  have hy : y.toNat < 2 ^ 32 := y.isLt
  rw [BitVec.toNat_sub, Nat.add_comm x.toNat, Nat.sub_add_comm (Nat.le_of_lt hy)]

/-- Settles O17: the destination holds the wrapped sum or difference, and each reading of it wraps. -/
theorem arithmeticIsModulo2ToThe32 : Obligations.ArithmeticIsModulo2ToThe32 := by
  unfold Obligations.ArithmeticIsModulo2ToThe32
  intro rd rs1 rs2 imm s hrd
  refine ⟨⟨_, exec_add rd rs1 rs2 s, ?_⟩, ⟨_, exec_sub rd rs1 rs2 s, ?_⟩, ⟨_, exec_addi rd rs1 imm s, ?_⟩⟩ <;>
    rw [retire_readReg_same s _ hrd]
  · exact ⟨BitVec.toNat_add _ _, BitVec.toInt_add _ _⟩
  · exact ⟨sub_toNat _ _, BitVec.toInt_sub⟩
  · exact ⟨BitVec.toNat_add _ _, BitVec.toInt_add _ _⟩

/-- Settles O18: the pattern of `-k` is the negation of the pattern of `k`, so the second sum cancels the first. -/
theorem addiOfTheNegatedImmediateUndoesIt : Obligations.AddiOfTheNegatedImmediateUndoesIt := by
  unfold Obligations.AddiOfTheNegatedImmediateUndoesIt
  intro rd rs1 k s t u hrd _ _ hfirst hsecond
  rw [exec_addi] at hfirst hsecond
  cases hfirst
  cases hsecond
  rw [retire_readReg_same _ _ hrd, retire_readReg_same _ _ hrd, BitVec.ofInt_neg]
  exact ⟨BitVec.add_neg_eq_sub ▸ BitVec.add_sub_cancel _ _, BitVec.sub_neg.symm⟩

/-- R50: sign extension adds `2^32 - 2^12` to a 12-bit pattern of 2^11 or more. -/
theorem sext12_toNat (x : BitVec 12) :
    (x.signExtend 32).toNat = x.toNat + if 2 ^ 11 ≤ x.toNat then 2 ^ 32 - 2 ^ 12 else 0 := by
  have hx : x.toNat < 2 ^ 32 := Nat.lt_of_lt_of_le x.isLt (by decide)
  rw [BitVec.toNat_signExtend, BitVec.toNat_setWidth, Nat.mod_eq_of_lt hx, BitVec.msb_eq_decide]
  simp only [decide_eq_true_eq]

/-- R72: the upper part, rounded up by the low part's sign bit, and the sign-extended low part make the constant. -/
theorem upper_add_lower (c : Word) :
    ((c + 0x800#32).extractLsb' 12 20 ++ 0#12 : Word) + (c.extractLsb' 0 12).signExtend 32 = c := by
  have hupper : ((c + 0x800#32).extractLsb' 12 20 ++ 0#12 : Word).toNat
      = (c.toNat + 0x800) % 2 ^ 32 / 2 ^ 12 % 2 ^ 20 * 2 ^ 12 := by
    rw [toNat_append_add, BitVec.extractLsb'_toNat, Nat.shiftRight_eq_div_pow, BitVec.toNat_add,
      BitVec.toNat_ofNat, BitVec.toNat_ofNat, Nat.zero_mod, Nat.add_zero]
  have hlower := sext12_toNat (c.extractLsb' 0 12)
  rw [BitVec.extractLsb'_toNat, Nat.shiftRight_zero] at hlower
  have hc : c.toNat < 2 ^ 32 := c.isLt
  apply BitVec.eq_of_toNat_eq
  rw [BitVec.toNat_add, hupper, hlower]
  split <;> omega

/-- Settles O19: ADDI reads what LUI wrote, and the two parts add up. -/
theorem luiThenAddiBuildsAnyConstant : Obligations.LuiThenAddiBuildsAnyConstant := by
  unfold Obligations.LuiThenAddiBuildsAnyConstant
  intro c rd s hrd
  refine ⟨_, _, _, _, rfl, rfl, ?luiWf, ?addiWf, exec_lui rd _ s, exec_addi rd rd _ _, ?result⟩
  case luiWf => exact immUWellFormed_immU (c + 0x800#32)
  case addiWf => exact beq_iff_eq.mpr (by rw [extract_signExtend _ (by decide)])
  case result => rw [retire_readReg_same _ _ hrd, retire_readReg_same _ _ hrd, upper_add_lower]

/-! ### What a result depends on (R72, R74 (c)) -/

/-- States that agree on an instruction's sources retire the same value, or both halt. -/
theorem exec_congr (i : Instr) {s s' : State} (h : ∀ r ∈ i.sources, s.readReg r = s'.readReg r) :
    (∃ rd v, i.dest = some rd ∧ exec i s = .next (s.retire rd v) ∧ exec i s' = .next (s'.retire rd v)) ∨
    (i = .ecall ∧ exec i s = .next s.halt ∧ exec i s' = .next s'.halt) := by
  cases i with
  | lui rd imm => exact .inl ⟨rd, imm, rfl, rfl, rfl⟩
  | addi rd rs1 imm =>
    refine .inl ⟨rd, s.readReg rs1 + imm, rfl, rfl, ?_⟩
    rw [h rs1 (by simp [Instr.sources]), exec_addi]
  | add rd rs1 rs2 =>
    refine .inl ⟨rd, s.readReg rs1 + s.readReg rs2, rfl, rfl, ?_⟩
    rw [h rs1 (by simp [Instr.sources]), h rs2 (by simp [Instr.sources]), exec_add]
  | sub rd rs1 rs2 =>
    refine .inl ⟨rd, s.readReg rs1 - s.readReg rs2, rfl, rfl, ?_⟩
    rw [h rs1 (by simp [Instr.sources]), h rs2 (by simp [Instr.sources]), exec_sub]
  | ecall => exact .inr ⟨rfl, rfl, rfl⟩

/-- Settles O20: the destination holds the retired value, or reads zero in both states when it is register 0. -/
theorem resultDependsOnSourcesAlone : Obligations.ResultDependsOnSourcesAlone := by
  unfold Obligations.ResultDependsOnSourcesAlone
  intro i rd s s' t t' hdest hsources hexec hexec'
  obtain ⟨rd', v, hdest', hs, hs'⟩ | ⟨rfl, -⟩ := exec_congr i hsources
  · obtain rfl : rd' = rd := Option.some.inj (hdest'.symm.trans hdest)
    cases hs.symm.trans hexec
    cases hs'.symm.trans hexec'
    by_cases hrd : rd' = 0
    · subst hrd
      rw [readReg_zero, readReg_zero]
    · rw [retire_readReg_same _ _ hrd, retire_readReg_same _ _ hrd]
  · cases hdest

/-! ### The cycle on an ADD or SUB word (R75, R76) -/

/-- R47, R51: the register that w[24:20] names. -/
theorem eq_rs2Field_iff (r : RegIdx) (w : Word) : r = rs2Field w ↔ r.val = (w.extractLsb' 20 5).toNat := Fin.ext_iff

/-- R55: bit 30 of a word is bit 5 of its funct7, the one bit in which SUB's differs from ADD's. -/
theorem getLsbD_thirty (w : Word) : w.getLsbD 30 = (funct7Field w).getLsbD 5 := by
  rw [funct7Field, BitVec.getLsbD_extractLsb']
  rfl

/-- A cycle that retires `v` into the destination of its word, with its frame. -/
theorem step_retire_frame {s : State} {w v : Word} (hrun : s.status = .running)
    (hstep : step s = .next (s.retire (rdField w) v)) :
    ∃ t, step s = .next t ∧
      (∀ r, t.readReg r = if r.val = (w.extractLsb' 7 5).toNat ∧ r ≠ 0 then v else s.readReg r) ∧
      t.pc = s.pc + (if s.pcUnit = .byte then 4#32 else 1#32) ∧ t.status = .running ∧ SameParameters s t :=
  ⟨_, hstep, retire_rdField_readReg s w v, retire_pc_eq_ite s _ _, (retire_status s _ _).trans hrun,
    retire_sameParameters s _ _⟩

/-- Settles O33: funct7 decides between the two instructions, and with it bit 30. -/
theorem cycleOnAnAddOrSubWord : Obligations.CycleOnAnAddOrSubWord := by
  unfold Obligations.CycleOnAnAddOrSubWord
  intro s w rs1 rs2 hrun hal hfetch hop h3 h7 hrs1 hrs2
  obtain rfl : rs1 = rs1Field w := (eq_rs1Field_iff rs1 w).mpr hrs1
  obtain rfl : rs2 = rs2Field w := (eq_rs2Field_iff rs2 w).mpr hrs2
  rw [getLsbD_thirty]
  apply step_retire_frame hrun
  obtain hadd | hsub := h7
  · rw [step_of_decodeWord hrun hal hfetch (decodeWord_add hop h3 hadd), exec_add, funct7Field, hadd]
    rfl
  · rw [step_of_decodeWord hrun hal hfetch (decodeWord_sub hop h3 hsub), exec_sub, funct7Field, hsub]
    rfl

end Sys2Proof.Machine
end

section
/-! The Decoder on ADD and SUB words, the rows of the opcode map, and the words written out (30_encoding.md R52, R55,
R57). -/

namespace Sys2Proof

/-! ### ADD and SUB (R55) -/

/-- R55: under the opcode of ADD and SUB no other funct3 or funct7 is an instruction. -/
theorem decodeWord_opReg_unrecognized {w : Word} (h : opcodeField w = opReg)
    (hother : funct3Field w ≠ funct3Add ∨ (funct7Field w ≠ funct7Add ∧ funct7Field w ≠ funct7Sub)) :
    decodeWord w = .unrecognized := by
  obtain ⟨-, hLui, hImm, -, -, hSystem, -⟩ := opcodes_differ
  obtain h3 | ⟨hadd, hsub⟩ := hother
  · simp [decodeWord, h, h3, hLui, hImm, hSystem.symm]
  · simp [decodeWord, h, hadd, hsub, hLui, hImm, hSystem.symm]

/-- Settles O4: the clauses are the Decoder's cases at the word's own register fields. -/
theorem addSubWordsDecodeByTheirFields : Obligations.AddSubWordsDecodeByTheirFields := by
  unfold Obligations.AddSubWordsDecodeByTheirFields
  exact fun w hop => ⟨rdField w, rs1Field w, rs2Field w, rfl, rfl, rfl, decodeWord_add hop, decodeWord_sub hop,
    decodeWord_opReg_unrecognized hop⟩

/-! ### The rows of the opcode map (R52) -/

/-- Concatenations of fields of the same widths are equal exactly when the fields are. -/
theorem append_eq_append_iff {m n : Nat} {a c : BitVec m} {b d : BitVec n} : a ++ b = c ++ d ↔ a = c ∧ b = d := by
  refine ⟨fun h => ?_, fun ⟨ha, hb⟩ => by rw [ha, hb]⟩
  have hlow : b = d := by rw [← extract_low a b, h, extract_low]
  subst hlow
  exact ⟨(BitVec.append_left_inj b).mp h, rfl⟩

/-- The rows of LUI and ECALL compare the opcode. -/
theorem opcodeRow_iff (w : Word) (o : BitVec 7) : w &&& 0x0000007F#32 = 0#25 ++ o ↔ opcodeField w = o := by
  rw [and_opcodeMask, append_eq_append_iff]
  exact and_iff_right rfl

/-- The row of ADDI compares the opcode and funct3. -/
theorem funct3Row_iff (w : Word) (f : BitVec 3) (o : BitVec 7) :
    w &&& 0x0000707F#32 = 0#17 ++ f ++ 0#5 ++ o ↔ opcodeField w = o ∧ funct3Field w = f := by
  rw [and_funct3Mask]
  refine ⟨fun h => ?_, fun ⟨ho, hf⟩ => by rw [ho, hf]⟩
  obtain ⟨habove, ho⟩ := append_eq_append_iff.mp h
  obtain ⟨habove, -⟩ := append_eq_append_iff.mp habove
  obtain ⟨-, hf⟩ := append_eq_append_iff.mp habove
  exact ⟨ho, hf⟩

/-- The rows of ADD and SUB compare the opcode, funct3 and funct7. -/
theorem funct7Row_iff (w : Word) (g : BitVec 7) (f : BitVec 3) (o : BitVec 7) :
    w &&& 0xFE00707F#32 = g ++ 0#10 ++ f ++ 0#5 ++ o ↔ opcodeField w = o ∧ funct3Field w = f ∧ funct7Field w = g := by
  rw [and_funct7Mask]
  refine ⟨fun h => ?_, fun ⟨ho, hf, hg⟩ => by rw [ho, hf, hg]⟩
  obtain ⟨habove, ho⟩ := append_eq_append_iff.mp h
  obtain ⟨habove, -⟩ := append_eq_append_iff.mp habove
  obtain ⟨habove, hf⟩ := append_eq_append_iff.mp habove
  obtain ⟨hg, -⟩ := append_eq_append_iff.mp habove
  exact ⟨ho, hf, hg⟩

theorem luiRow_iff (w : Word) : w &&& 0x0000007F#32 = 0x00000037#32 ↔ opcodeField w = opLui := opcodeRow_iff w opLui

theorem addiRow_iff (w : Word) :
    w &&& 0x0000707F#32 = 0x00000013#32 ↔ opcodeField w = opImm ∧ funct3Field w = funct3Add :=
  funct3Row_iff w funct3Add opImm

theorem addRow_iff (w : Word) : w &&& 0xFE00707F#32 = 0x00000033#32 ↔
    opcodeField w = opReg ∧ funct3Field w = funct3Add ∧ funct7Field w = funct7Add :=
  funct7Row_iff w funct7Add funct3Add opReg

theorem subRow_iff (w : Word) : w &&& 0xFE00707F#32 = 0x40000033#32 ↔
    opcodeField w = opReg ∧ funct3Field w = funct3Add ∧ funct7Field w = funct7Sub :=
  funct7Row_iff w funct7Sub funct3Add opReg

theorem ecallRow_iff (w : Word) : w &&& 0x0000007F#32 = 0x00000073#32 ↔ opcodeField w = opSystem :=
  opcodeRow_iff w opSystem

/-- R52: a decoded word matches the row of its instruction. -/
theorem and_rowMask_of_decodeWord {w : Word} {i : Instr} (h : decodeWord w = .instr i) :
    w &&& i.rowMask = i.rowMatch := by
  obtain ⟨hop, rfl⟩ | ⟨hop, h3, rfl⟩ | ⟨hop, h3, h7, rfl⟩ | ⟨hop, h3, h7, rfl⟩ | ⟨hop, rfl⟩ :=
    decodeWord_instr_cases h
  · exact (luiRow_iff w).mpr hop
  · exact (addiRow_iff w).mpr ⟨hop, h3⟩
  · exact (addRow_iff w).mpr ⟨hop, h3, h7⟩
  · exact (subRow_iff w).mpr ⟨hop, h3, h7⟩
  · exact (ecallRow_iff w).mpr hop

/-- R57: a word is UNRECOGNIZED exactly when it meets none of the Decoder's five conditions. -/
theorem decodeWord_eq_unrecognized_iff (w : Word) : decodeWord w = .unrecognized ↔
    (opcodeField w ≠ opLui ∧ ¬ (opcodeField w = opImm ∧ funct3Field w = funct3Add) ∧
     ¬ (opcodeField w = opReg ∧ funct3Field w = funct3Add ∧ funct7Field w = funct7Add) ∧
     ¬ (opcodeField w = opReg ∧ funct3Field w = funct3Add ∧ funct7Field w = funct7Sub) ∧
     opcodeField w ≠ opSystem) := by
  constructor
  case mp =>
    intro h
    refine ⟨fun hop => ?_, fun ⟨hop, h3⟩ => ?_, fun ⟨hop, h3, h7⟩ => ?_, fun ⟨hop, h3, h7⟩ => ?_, fun hop => ?_⟩
    · cases h.symm.trans (decodeWord_lui hop)
    · cases h.symm.trans (decodeWord_addi hop h3)
    · cases h.symm.trans (decodeWord_add hop h3 h7)
    · cases h.symm.trans (decodeWord_sub hop h3 h7)
    · cases h.symm.trans (decodeWord_ecall hop)
  case mpr =>
    rintro ⟨hlui, haddi, hadd, hsub, hecall⟩
    rw [decodeWord, if_neg hlui, if_neg haddi, if_neg hadd, if_neg hsub, if_neg hecall]

/-- Settles O5: each row compares the fields that its case of the Decoder compares. -/
theorem maskAndMatchRowsDecideTheVariant : Obligations.MaskAndMatchRowsDecideTheVariant := by
  unfold Obligations.MaskAndMatchRowsDecideTheVariant
  refine ⟨fun _ _ => and_rowMask_of_decodeWord, fun w => ?_⟩
  simp only [decodeWord_eq_unrecognized_iff, ne_eq, luiRow_iff, addiRow_iff, addRow_iff, subRow_iff, ecallRow_iff]

/-! ### The words written out -/

/-- Settles O1: the Decoder evaluates to what is claimed on each of the seven words. -/
theorem sampleWordsDecodeToTheirInstructions : Obligations.SampleWordsDecodeToTheirInstructions := by
  unfold Obligations.SampleWordsDecodeToTheirInstructions
  decide

end Sys2Proof
end

section
/-! The instruction memory: the translator and the bounds check, the load within the bound, the canonical form, and the
placed word (20_memory.md R30, R36, R37; logs 2 and 3). -/

namespace Sys2Proof.Machine

/-! ### The translator and the bounds check (R36, R37) -/

theorem wordIndex_byte (pc : Word) : wordIndex .byte pc = pc.toNat / 4 := rfl

theorem wordIndex_word (pc : Word) : wordIndex .word pc = pc.toNat := Nat.div_one _

/-- R36: the byte offset of an aligned pc under PC_UNIT = 4 is the pc. -/
theorem byteOffset_byte_of_aligned {pc : Word} (h : pc.toNat % 4 = 0) : byteOffset .byte pc = pc.toNat :=
  Nat.mul_div_cancel' (Nat.dvd_of_mod_eq_zero h)

/-- Settles O21: the two values of the word index, and four times it. -/
theorem translatorFollowsPcUnit : Obligations.TranslatorFollowsPcUnit := by
  unfold Obligations.TranslatorFollowsPcUnit
  exact fun pc => ⟨wordIndex_byte pc, wordIndex_word pc, by rw [byteOffset, wordIndex_word], rfl,
    byteOffset_byte_of_aligned⟩

/-- Settles O22: the check compares the word index, and a fetch answers exactly when it holds. -/
theorem boundsCheckComparesTheWordIndex : Obligations.BoundsCheckComparesTheWordIndex := by
  unfold Obligations.BoundsCheckComparesTheWordIndex
  intro m pc
  have hword : inBounds m .word pc = true ↔ pc.toNat < m.lenWords.val := by rw [inBounds_eq_true, wordIndex_word]
  have hbyte : inBounds m .byte pc = true ↔ pc.toNat / 4 < m.lenWords.val := by rw [inBounds_eq_true, wordIndex_byte]
  refine ⟨hword, hbyte, fun h4 => ⟨?first, ?last⟩, fun u => fetchWord_eq_none.symm⟩
  case first => rw [hbyte, Memory.lenBytes]; omega
  case last => rw [hbyte, Memory.lenBytes]; omega

/-! ### The load (R30, D3) -/

theorem load_of_le {bytes : List Byte} (h4 : bytes.length % 4 = 0) (hlen : bytes.length / 4 ≤ Config.maxImageWords) :
    ∃ m, Memory.load bytes = .ok m := by
  rw [Memory.load, if_pos h4, dif_pos (Nat.lt_succ_of_le hlen)]
  exact ⟨_, rfl⟩

theorem load_of_gt {bytes : List Byte} (h4 : bytes.length % 4 = 0) (hlen : Config.maxImageWords < bytes.length / 4) :
    Memory.load bytes = .imageTooLong := by
  rw [Memory.load, if_pos h4, dif_neg (Nat.not_lt_of_ge (Nat.succ_le_of_lt hlen))]

/-- Settles O27: the load's two answers to an image of whole words. -/
theorem wholeWordImageLoadsWithinTheBound : Obligations.WholeWordImageLoadsWithinTheBound := by
  unfold Obligations.WholeWordImageLoadsWithinTheBound
  refine fun bytes h4 => ⟨fun hlen => ?_, load_of_gt h4⟩
  obtain ⟨m, hload⟩ := load_of_le h4 hlen
  obtain ⟨hbytes, -⟩ := load_ok hload
  exact ⟨m, hload, hbytes, load_wf hload⟩

/-! ### The canonical form (log 2) -/

/-- From the upper bound of canonical cells on, an offset is unlisted. -/
theorem byteInCells_above {hi : Nat} : ∀ {cells : List Host.Cell} {lo a : Nat},
    cellsCanonical lo hi cells = true → hi ≤ a → byteInCells a cells = unlistedByte
  | [], _, _, _, _ => rfl
  | (a', b') :: rest, lo, a, h, ha => by
    simp only [cellsCanonical, Bool.and_eq_true, decide_eq_true_eq] at h
    obtain ⟨⟨⟨-, hlt⟩, -⟩, hrest⟩ := h
    rw [byteInCells, if_neg (by omega)]
    exact byteInCells_above hrest ha

theorem readByte_inside {m : Memory} {a : Nat} (h : a < m.lenBytes) : m.readByte a = some (byteInCells a m.cells) :=
  if_pos h

/-- Settles O28: reads within the image determine the cells there, every cell is there, and canonical cells are
determined by what they read as. -/
theorem memoriesThatReadAlikeAreEqual : Obligations.MemoriesThatReadAlikeAreEqual := by
  unfold Obligations.MemoriesThatReadAlikeAreEqual
  intro m m' hwf hwf' hwords hread
  have hlen : m'.lenBytes = m.lenBytes := by rw [Memory.lenBytes, Memory.lenBytes, hwords]
  rw [Memory.wf, hlen] at hwf'
  have hcells : m.cells = m'.cells := cells_ext hwf hwf' fun a => by
    obtain ha | ha := Nat.lt_or_ge a m.lenBytes
    · have hbyte := hread a
      rw [readByte_inside ha, readByte_inside (hlen.symm ▸ ha)] at hbyte
      exact Option.some.inj hbyte
    · rw [byteInCells_above hwf ha, byteInCells_above hwf' ha]
  cases m
  cases m'
  congr

/-! ### The placed word (log 2) -/

/-- R33 and R38: MemRead answers a word exactly inside the image, so the fetch is MemRead at the word index, in bounds
or not. -/
theorem fetchWord_eq_readWord (m : Memory) (u : PcUnit) (pc : Word) :
    fetchWord m u pc = m.readWord (4 * wordIndex u pc) := by
  cases hin : inBounds m u pc with
  | true => exact fetchWord_of_inBounds hin
  | false =>
    rw [fetchWord_eq_none.mpr hin]
    rw [inBounds_eq_false] at hin
    have hout : m.readByte (4 * wordIndex u pc) = none := if_neg (by rw [Memory.lenBytes]; omega)
    rw [Memory.readWord, if_pos (Nat.mul_mod_right 4 _), hout]

/-- The word placed at the pc is the word fetched next. -/
theorem placeAtPc_fetch {s : State} (hwf : s.mem.wf = true) (hi : wordIndex s.pcUnit s.pc < Config.maxImageWords)
    (w : Word) : (s.placeAtPc w).fetch = some w := by
  rw [State.fetch, placeAtPc_pcUnit, placeAtPc_pc, placeAtPc_mem, fetchWord_eq_readWord, placeWord_readWord hwf hi]

theorem tableWord_32 (w : Nat) : tableWord 32 w = BitVec.ofNat 32 w := by
  apply BitVec.eq_of_toNat_eq
  rw [tableWord, BitVec.toNat_ofNat, BitVec.toNat_ofNat, Nat.mod_mod]

/-- Settles O29: the placed word is fetched and decoded in the next cycle, and placing changes its own four bytes and
the status only. -/
theorem withFetchWordIsRunNext : Obligations.WithFetchWordIsRunNext := by
  unfold Obligations.WithFetchWordIsRunNext
  intro s w i hwf hal hi hdec
  rw [State.withFetchWord, tableWord_32]
  refine ⟨?runs, fun _ => rfl, placeAtPc_pc s _, fun a ha hother => ?bytes⟩
  case runs => exact step_of_decodeWord (placeAtPc_status s _) hal (placeAtPc_fetch hwf hi _) hdec
  case bytes =>
    rw [placeAtPc_mem]
    exact placeWord_readByte_other hwf _ _ ha hother

end Sys2Proof.Machine
end

section
/-! What the host sees at the end of a run (00_scope.md R15 and R16, 60_exceptions.md R87 and R97), and where runs end
(40_execution_cycle.md R67 and R68). -/

namespace Sys2Proof.Machine

/-! ### The snapshot and the outcome (R15, R16) -/

/-- R16: the snapshot is the halted state's registers and pc. -/
theorem snapshot_eq_some_iff (s : State) (q : Snapshot) :
    s.snapshot = some q ↔ s.status = .halted ∧ q = { x := Vector.ofFn s.readReg, pc := s.pc } := by
  rcases hst : s.status <;> simp [State.snapshot, hst, eq_comm]

theorem snapshot_of_not_halted {s : State} (h : s.status ≠ .halted) : s.snapshot = none :=
  Option.eq_none_iff_forall_ne_some.mpr fun q hq => h ((snapshot_eq_some_iff s q).mp hq).1

/-- Settles O51: a halted state's snapshot reads every register, and there is none under another status. -/
theorem snapshotOnlyAfterAHalt : Obligations.SnapshotOnlyAfterAHalt := by
  unfold Obligations.SnapshotOnlyAfterAHalt
  refine fun s => ⟨fun h => ⟨_, (snapshot_eq_some_iff s _).mpr ⟨h, rfl⟩, rfl, fun r => ?_⟩, snapshot_of_not_halted⟩
  rw [Vector.getElem_ofFn]

/-- R25: the status that records a fault is the only one with its information. -/
theorem faultInfo_eq_some_iff (st : Status) (f : FaultInfo) : st.faultInfo = some f ↔ st = f.toStatus := by
  constructor
  case mp =>
    intro h
    cases st with
    | running => cases h
    | halted => cases h
    | faultFetchOob addr => cases h; rfl
    | faultUnrecognized word pc => cases h; rfl
  case mpr =>
    rintro rfl
    exact faultInfo_toStatus f

theorem outcome_eq_none_iff (s : State) : s.outcome = none ↔ s.status = .running := by
  rcases hst : s.status <;> simp [State.outcome, State.snapshot, hst]

theorem outcome_eq_faulted_iff (s : State) (f : FaultInfo) :
    s.outcome = some (.faulted f) ↔ s.status.faultInfo = some f := by
  rcases hst : s.status <;> simp [State.outcome, State.snapshot, Status.faultInfo, hst]

theorem outcome_eq_halted_iff (s : State) (q : Snapshot) :
    s.outcome = some (.halted q) ↔ s.snapshot = some q := by
  rcases hst : s.status <;> simp [State.outcome, State.snapshot, hst]

/-- Settles O52: the three readings of the outcome. -/
theorem outcomeIsTheStatusWithItsInformation : Obligations.OutcomeIsTheStatusWithItsInformation :=
  fun s => ⟨outcome_eq_none_iff s, outcome_eq_faulted_iff s, outcome_eq_halted_iff s⟩

/-! ### Runs from a pc within the image (R23, R68) -/

/-- Every run keeps the invariant, because every step does. -/
theorem run_inv : ∀ {k : Nat} {s t : State}, s.Inv → run k s = .next t → t.Inv
  | 0, _, _, hinv, h => by cases h; exact hinv
  | k + 1, s, t, hinv, h => by
    obtain ⟨-, rfl⟩ | ⟨-, s', hstep, hrun⟩ := run_succ_cases h
    · exact hinv
    · exact run_inv (step_inv hinv hstep) hrun

/-- A run from a pc within the image meets no refusal, and no step is asked of a terminal state. -/
theorem run_total : ∀ {s : State}, s.PcInImage → ∀ k, ∃ t, run k s = .next t
  | s, _, 0 => ⟨s, rfl⟩
  | s, hpc, k + 1 => by
    by_cases hrun : s.status = .running
    · obtain ⟨s', hstep⟩ := step_total hrun hpc.aligned
      rw [run_step hrun hstep]
      by_cases hrun' : s'.status = .running
      · obtain ⟨-, hpc'⟩ := step_running_pc hstep hrun'
        exact run_total hpc' k
      · exact ⟨s', run_terminal hrun' k⟩
    · exact ⟨s, run_terminal hrun (k + 1)⟩

/-- R23, R92: `k` steps of a run that goes on move the pc up by `k` units, within the image. -/
theorem run_running_pc : ∀ {k : Nat} {s t : State}, s.PcInImage → run k s = .next t → t.status = .running →
    t.pc.toNat = s.pc.toNat + k * s.pcUnit.toNat ∧ t.PcInImage
  | 0, s, t, hpc, h, _ => by cases h; exact ⟨by simp, hpc⟩
  | k + 1, s, t, hpc, h, ht => by
    obtain ⟨hst, rfl⟩ | ⟨-, s', hstep, hrun⟩ := run_succ_cases h
    · exact absurd ht hst
    · have hs' : s'.status = .running := by
        by_contra hst
        cases (run_terminal hst k).symm.trans hrun
        exact hst ht
      obtain ⟨hup, hpc'⟩ := step_running_pc hstep hs'
      obtain ⟨hsum, hin⟩ := run_running_pc hpc' hrun ht
      refine ⟨?_, hin⟩
      rw [hsum, hup, (step_mem hstep).2, Nat.succ_mul]
      omega

/-- R68: LEN_WORDS + 1 cycles are enough, since every cycle that goes on moves the pc up within the image. -/
theorem run_ends {s : State} (hpc : s.PcInImage) :
    ∃ t, run (s.mem.lenWords.val + 1) s = .next t ∧ t.status ≠ .running := by
  obtain ⟨t, ht⟩ := run_total hpc (s.mem.lenWords.val + 1)
  refine ⟨t, ht, fun hrun => ?_⟩
  obtain ⟨hsum, hin⟩ := run_running_pc hpc ht hrun
  obtain ⟨hmem, hunit⟩ := run_mem ht
  have hbound := hin.bounded
  rw [hsum, hmem, hunit, Nat.succ_mul] at hbound
  have hpos := unit_pos s.pcUnit
  omega

/-- Settles O45: a run starts at pc 0, and its pc stays within the image. -/
theorem thePcCountsRetiredInstructions : Obligations.ThePcCountsRetiredInstructions := by
  unfold Obligations.ThePcCountsRetiredInstructions
  intro u _ m k t _ hrun ht
  obtain ⟨hsum, hin⟩ := run_running_pc (start_pcInImage u m) hrun ht
  obtain ⟨hmem, hunit⟩ := run_mem hrun
  have hpc : t.pc.toNat = k * u.toNat := by simpa using hsum
  have hbound := hin.bounded
  rw [hmem, hunit, hpc] at hbound
  exact ⟨hpc, Nat.le_of_mul_le_mul_right hbound (unit_pos u)⟩

/-- Settles O46: the run ends because the pc is within the image, and the run keeps the invariant. -/
theorem everyRunEndsWithinLenWordsPlusOneCycles : Obligations.EveryRunEndsWithinLenWordsPlusOneCycles := by
  unfold Obligations.EveryRunEndsWithinLenWordsPlusOneCycles
  intro s hinv hrun
  obtain ⟨t, ht, hend⟩ := run_ends (pcInImage_of_inv hinv (.inl hrun))
  exact ⟨t, ht, hend, run_inv hinv ht⟩

/-! ### The outcome of a run (R15) -/

/-- R67: a run that has ended answers the same state for any larger number of cycles. -/
theorem run_of_le : ∀ {k j : Nat} {s t : State}, run k s = .next t → t.status ≠ .running → k ≤ j → run j s = .next t
  | 0, j, s, t, h, hend, _ => by cases h; exact run_terminal hend j
  | k + 1, 0, _, _, _, _, hle => absurd hle (Nat.not_succ_le_zero k)
  | k + 1, j + 1, s, t, h, hend, hle => by
    obtain ⟨hst, rfl⟩ | ⟨hst, s', hstep, hrun⟩ := run_succ_cases h
    · exact run_terminal hst _
    · rw [run_step hst hstep]
      exact run_of_le hrun hend (Nat.le_of_succ_le_succ hle)

/-- The outcome is that of the terminal state the run reaches, however many cycles reach it. -/
theorem execute_of_run {k : Nat} {s t : State} (hpc : s.PcInImage) (hrun : run k s = .next t)
    (hend : t.status ≠ .running) : execute s = t.outcome := by
  obtain ⟨t', hrun', hend'⟩ := run_ends hpc
  obtain rfl : t = t' := by
    have h := run_of_le hrun hend (Nat.le_max_left k (s.mem.lenWords.val + 1))
    have h' := run_of_le hrun' hend' (Nat.le_max_right k (s.mem.lenWords.val + 1))
    cases h.symm.trans h'
    rfl
  rw [execute, hrun']

/-- Settles O50: no pc is within an image of no words, so the first cycle faults, and with it the run. -/
theorem theEmptyImageFaultsAtZero : Obligations.TheEmptyImageFaultsAtZero := by
  unfold Obligations.TheEmptyImageFaultsAtZero
  intro u
  have hpc := start_pcInImage u ⟨[], 0⟩
  have hstep := step_of_fetch_none (start_status u ⟨[], 0⟩) hpc.aligned (fetch_eq_none_of_le (Nat.zero_le _))
  have hrun := (run_step (start_status u ⟨[], 0⟩) hstep 0).trans (run_zero _)
  exact ⟨⟨[], 0⟩, _, rfl, hstep, rfl, execute_of_run hpc hrun (by simp)⟩

/-- A terminal state of the invariant has an outcome, and it tells the truth about the image. -/
theorem outcome_true_of_inv {t : State} (hinv : t.Inv) (hend : t.status ≠ .running) :
    ∃ o, t.outcome = some o ∧
      (∀ q, o = .halted q → q.x[0] = 0#32 ∧
        ∃ w, fetchWord t.mem t.pcUnit q.pc = some w ∧ w.extractLsb' 0 7 = 0b1110011#7) ∧
      (∀ a, o = .faulted (.fetchOutOfBounds a) → a.toNat = t.mem.lenWords.val * t.pcUnit.toNat) ∧
      (∀ w p, o = .faulted (.unrecognizedInstruction w p) →
        fetchWord t.mem t.pcUnit p = some w ∧ decodeWord w = .unrecognized) := by
  obtain ⟨o, ho⟩ := Option.ne_none_iff_exists'.mp (mt (outcome_eq_none_iff t).mp hend)
  refine ⟨o, ho, ?halted, ?outOfBounds, ?unrecognized⟩
  case halted =>
    rintro q rfl
    obtain ⟨hst, rfl⟩ := (snapshot_eq_some_iff t q).mp ((outcome_eq_halted_iff t q).mp ho)
    obtain ⟨w, hfetch, hdec⟩ := hinv.haltedAtEcall hst
    exact ⟨Vector.getElem_ofFn .., w, hfetch, opcode_of_decodeWord_ecall hdec⟩
  case outOfBounds =>
    rintro a rfl
    exact hinv.oobAtEnd a ((faultInfo_eq_some_iff _ _).mp ((outcome_eq_faulted_iff t _).mp ho))
  case unrecognized =>
    rintro w p rfl
    exact hinv.unrecognizedWord w p ((faultInfo_eq_some_iff _ _).mp ((outcome_eq_faulted_iff t _).mp ho))

/-- Settles O47: the run ends in a state of the invariant, with the image it was given. -/
theorem everyLoadedImageHasATrueOutcome : Obligations.EveryLoadedImageHasATrueOutcome := by
  unfold Obligations.EveryLoadedImageHasATrueOutcome
  intro u bytes m hload
  have hpc := start_pcInImage u m
  obtain ⟨t, hrun, hend⟩ := run_ends hpc
  obtain ⟨hmem, hunit⟩ := run_mem hrun
  have hinv : t.Inv := run_inv (start_inv u hload) hrun
  have htrue := outcome_true_of_inv hinv hend
  rwa [← execute_of_run hpc hrun hend, hmem, hunit] at htrue

end Sys2Proof.Machine
end

section
/-! Two runs side by side: under the two values of PC_UNIT (00_scope.md R9), and over images that agree up to the
halting word (44_ecall.md R78). -/

namespace Sys2Proof.Machine

/-! ### Lockstep: the same place in the image, the same registers, the same status -/

/-- Two pcs, each in its own unit, that stand at the same word index. -/
structure SamePlace (u u' : PcUnit) (pc pc' : Word) : Prop where
  alignedLeft : pcAligned u pc = true
  alignedRight : pcAligned u' pc' = true
  index : wordIndex u pc = wordIndex u' pc'

/-- Statuses of one kind whose information differs at most in the units of its pcs. -/
inductive SameStatus (u u' : PcUnit) : Status → Status → Prop where
  | running : SameStatus u u' .running .running
  | halted : SameStatus u u' .halted .halted
  | faultFetchOob {a a' : Word} (place : SamePlace u u' a a') :
    SameStatus u u' (.faultFetchOob a) (.faultFetchOob a')
  | faultUnrecognized (w : Word) {p p' : Word} (place : SamePlace u u' p p') :
    SameStatus u u' (.faultUnrecognized w p) (.faultUnrecognized w p')

/-- Two states at the same point of their runs. Their images may differ. -/
structure Lockstep (s t : State) : Prop where
  regs : ∀ r, s.readReg r = t.readReg r
  place : SamePlace s.pcUnit t.pcUnit s.pc t.pc
  status : SameStatus s.pcUnit t.pcUnit s.status t.status

theorem samePlace_same_unit {u : PcUnit} {pc pc' : Word} (h : SamePlace u u pc pc') : pc = pc' := by
  apply BitVec.eq_of_toNat_eq
  rw [← wordIndex_mul_unit h.alignedLeft, h.index, wordIndex_mul_unit h.alignedRight]

/-- R9: the pc that counts bytes is four times the one that counts words. -/
theorem samePlace_byte_word {pc pc' : Word} (h : SamePlace .byte .word pc pc') : pc.toNat = 4 * pc'.toNat := by
  rw [← wordIndex_mul_unit h.alignedLeft, h.index, wordIndex_word]
  exact Nat.mul_comm _ _

theorem running_iff_of_sameStatus {u u' : PcUnit} {st st' : Status} (h : SameStatus u u' st st') :
    st = .running ↔ st' = .running := by
  cases h <;> simp

theorem start_lockstep (u u' : PcUnit) (m m' : Memory) : Lockstep (State.start u m) (State.start u' m') where
  regs r := by rw [start_readReg, start_readReg]
  place := ⟨(start_pcInImage u m).aligned, (start_pcInImage u' m').aligned, by simp [wordIndex]⟩
  status := .running

/-! ### A cycle keeps the lockstep -/

theorem retire_wordIndex {s : State} (rd : RegIdx) (v : Word) (hal : pcAligned s.pcUnit s.pc = true)
    (hin : inBounds s.mem s.pcUnit s.pc = true) :
    wordIndex (s.retire rd v).pcUnit (s.retire rd v).pc = wordIndex s.pcUnit s.pc + 1 := by
  rw [wordIndex, retire_pc_toNat rd v hal hin, retire_pcUnit, Nat.add_div_right _ (unit_pos _), wordIndex]

section
variable {s t : State} (h : Lockstep s t)
include h

theorem halt_lockstep : Lockstep s.halt t.halt where
  regs := h.regs
  place := h.place
  status := .halted

theorem raise_fetchOutOfBounds_lockstep :
    Lockstep (s.raise (.fetchOutOfBounds s.pc)) (t.raise (.fetchOutOfBounds t.pc)) where
  regs := h.regs
  place := h.place
  status := .faultFetchOob h.place

theorem raise_unrecognizedInstruction_lockstep (w : Word) :
    Lockstep (s.raise (.unrecognizedInstruction w s.pc)) (t.raise (.unrecognizedInstruction w t.pc)) where
  regs := h.regs
  place := h.place
  status := .faultUnrecognized w h.place

theorem retire_lockstep {w : Word} (hs : s.fetch = some w) (ht : t.fetch = some w) (rd : RegIdx) (v : Word) :
    Lockstep (s.retire rd v) (t.retire rd v) where
  regs r := by rw [retire_readReg, retire_readReg, h.regs]
  place := by
    have hins := inBounds_of_fetch hs
    have hint := inBounds_of_fetch ht
    refine ⟨(retire_pcInImage rd v h.place.alignedLeft hins).aligned,
      (retire_pcInImage rd v h.place.alignedRight hint).aligned, ?_⟩
    rw [retire_wordIndex rd v h.place.alignedLeft hins, retire_wordIndex rd v h.place.alignedRight hint, h.place.index]
  status := by
    rw [retire_status, retire_status, retire_pcUnit, retire_pcUnit]
    exact h.status

/-- States in lockstep that fetch the same word, or both none, take the same end of the cycle. -/
theorem step_lockstep (hrun : s.status = .running) (hfetch : t.fetch = s.fetch) :
    ∃ s' t', step s = .next s' ∧ step t = .next t' ∧ Lockstep s' t' := by
  have hrun' : t.status = .running := (running_iff_of_sameStatus h.status).mp hrun
  have hal := h.place.alignedLeft
  have hal' := h.place.alignedRight
  rcases hs : s.fetch with _ | w <;> rw [hs] at hfetch
  · exact ⟨_, _, step_of_fetch_none hrun hal hs, step_of_fetch_none hrun' hal' hfetch,
      raise_fetchOutOfBounds_lockstep h⟩
  rcases hdec : decodeWord w with i | _
  · rw [step_of_decodeWord hrun hal hs hdec, step_of_decodeWord hrun' hal' hfetch hdec]
    obtain ⟨rd, v, -, hexec, hexec'⟩ | ⟨-, hexec, hexec'⟩ := exec_congr i fun r _ => h.regs r
    · exact ⟨_, _, hexec, hexec', retire_lockstep h hs hfetch rd v⟩
    · exact ⟨_, _, hexec, hexec', halt_lockstep h⟩
  · exact ⟨_, _, step_of_unrecognized hrun hal hs hdec, step_of_unrecognized hrun' hal' hfetch hdec,
      raise_unrecognizedInstruction_lockstep h w⟩

end

/-! ### Runs in lockstep -/

/-- R69: no step moves to a lower word. -/
theorem step_wordIndex_le {s t : State} (hstep : step s = .next t) :
    wordIndex s.pcUnit s.pc ≤ wordIndex t.pcUnit t.pc := by
  obtain ⟨-, hal, ⟨-, rfl⟩ | ⟨w, -, -, rfl⟩ | ⟨w, -, -, rfl⟩ | ⟨w, i, rd, v, hfetch, -, -, rfl⟩⟩ := step_cases hstep
  · exact Nat.le_refl _
  · exact Nat.le_refl _
  · exact Nat.le_refl _
  · rw [retire_wordIndex rd v hal (inBounds_of_fetch hfetch)]
    exact Nat.le_succ _

theorem run_wordIndex_le : ∀ {k : Nat} {s t : State}, run k s = .next t →
    wordIndex s.pcUnit s.pc ≤ wordIndex t.pcUnit t.pc
  | 0, _, _, h => by cases h; exact Nat.le_refl _
  | k + 1, s, t, h => by
    obtain ⟨-, rfl⟩ | ⟨-, s', hstep, hrun⟩ := run_succ_cases h
    · exact Nat.le_refl _
    · exact Nat.le_trans (step_wordIndex_le hstep) (run_wordIndex_le hrun)

/-- The first `n` words of the two memories are the same. -/
def AgreeBelow (n : Nat) (m m' : Memory) : Prop := ∀ i < n, m'.readWord (4 * i) = m.readWord (4 * i)

/-- Two runs from states in lockstep stay so where the images agree on every word up to the one the first run ends at:
no earlier fetch is of a later word. -/
theorem run_lockstep {n : Nat} : ∀ {k : Nat} {s t s' : State}, AgreeBelow n s.mem t.mem → Lockstep s t →
    run k s = .next s' → wordIndex s'.pcUnit s'.pc < n → ∃ t', run k t = .next t' ∧ Lockstep s' t'
  | 0, s, t, s', _, hlock, hrun, _ => by cases hrun; exact ⟨t, rfl, hlock⟩
  | k + 1, s, t, s', hagree, hlock, hrun, hlast => by
    have hindex : wordIndex s.pcUnit s.pc < n := Nat.lt_of_le_of_lt (run_wordIndex_le hrun) hlast
    obtain ⟨hend, rfl⟩ | ⟨hlive, s₁, hstep, hrun₁⟩ := run_succ_cases hrun
    · exact ⟨t, run_terminal (mt (running_iff_of_sameStatus hlock.status).mpr hend) _, hlock⟩
    · have hfetch : t.fetch = s.fetch := by
        rw [State.fetch, State.fetch, fetchWord_eq_readWord, fetchWord_eq_readWord, ← hlock.place.index,
          hagree _ hindex]
      obtain ⟨s₁', t₁, hs₁, ht₁, hlock₁⟩ := step_lockstep hlock hlive hfetch
      cases hs₁.symm.trans hstep
      have hagree₁ : AgreeBelow n s₁.mem t₁.mem := by rwa [(step_mem hstep).1, (step_mem ht₁).1]
      obtain ⟨t', hrun', hlock'⟩ := run_lockstep hagree₁ hlock₁ hrun₁ hlast
      exact ⟨t', (run_step ((running_iff_of_sameStatus hlock.status).mp hlive) ht₁ k).trans hrun', hlock'⟩

/-! ### PC_UNIT (R9) -/

theorem snapshot_regs_of_lockstep {s t : State} (h : Lockstep s t) : Vector.ofFn s.readReg = Vector.ofFn t.readReg :=
  congrArg Vector.ofFn (funext h.regs)

/-- Terminal states in lockstep, one counting bytes and one words, have outcomes that differ in pc values only. -/
theorem outcome_of_lockstep_byte_word {s t : State} (h : Lockstep s t) (hs : s.pcUnit = .byte) (ht : t.pcUnit = .word)
    (hend : s.status ≠ .running) :
    ∃ a b, s.outcome = some a ∧ t.outcome = some b ∧ SameOutcomeUpToPcUnit a b := by
  have hplace := h.place
  have hstatus := h.status
  rw [hs, ht] at hplace hstatus
  generalize hsst : s.status = st, htst : t.status = st' at hstatus hend
  cases hstatus with
  | running => exact absurd rfl hend
  | halted =>
    exact ⟨_, _, (outcome_eq_halted_iff s _).mpr ((snapshot_eq_some_iff s _).mpr ⟨hsst, rfl⟩),
      (outcome_eq_halted_iff t _).mpr ((snapshot_eq_some_iff t _).mpr ⟨htst, rfl⟩),
      snapshot_regs_of_lockstep h, samePlace_byte_word hplace⟩
  | faultFetchOob place =>
    exact ⟨_, _, (outcome_eq_faulted_iff s (.fetchOutOfBounds _)).mpr (hsst ▸ rfl),
      (outcome_eq_faulted_iff t (.fetchOutOfBounds _)).mpr (htst ▸ rfl), samePlace_byte_word place⟩
  | faultUnrecognized w place =>
    exact ⟨_, _, (outcome_eq_faulted_iff s (.unrecognizedInstruction w _)).mpr (hsst ▸ rfl),
      (outcome_eq_faulted_iff t (.unrecognizedInstruction w _)).mpr (htst ▸ rfl), rfl, samePlace_byte_word place⟩

/-- Settles O48: the two runs read the same image, so they stay in lockstep to their end. -/
theorem pcUnitChangesOnlyPcValues : Obligations.PcUnitChangesOnlyPcValues := by
  unfold Obligations.PcUnitChangesOnlyPcValues
  intro m
  obtain ⟨s, hs, hend⟩ := run_ends (start_pcInImage .byte m)
  have hindex : wordIndex s.pcUnit s.pc < 2 ^ 32 := Nat.lt_of_le_of_lt (Nat.div_le_self _ _) s.pc.isLt
  have hagree : AgreeBelow (2 ^ 32) (State.start .byte m).mem (State.start .word m).mem := fun _ _ => rfl
  obtain ⟨t, ht, hlock⟩ := run_lockstep hagree (start_lockstep .byte .word m m) hs hindex
  have hend' : t.status ≠ .running := mt (running_iff_of_sameStatus hlock.status).mpr hend
  rw [execute_of_run (start_pcInImage .byte m) hs hend, execute_of_run (start_pcInImage .word m) ht hend']
  exact outcome_of_lockstep_byte_word hlock (run_mem hs).2 (run_mem ht).2 hend

/-! ### The words behind the halting ECALL (R78) -/

/-- Under one PC_UNIT a halted state in lockstep with another gives the host the same snapshot. -/
theorem outcome_halted_of_lockstep {s t : State} {q : Snapshot} (h : Lockstep s t) (hunit : s.pcUnit = t.pcUnit)
    (hq : s.outcome = some (.halted q)) : t.outcome = some (.halted q) := by
  obtain ⟨hst, rfl⟩ := (snapshot_eq_some_iff s q).mp ((outcome_eq_halted_iff s q).mp hq)
  have hplace := h.place
  have hstatus := h.status
  rw [hunit] at hplace hstatus
  rw [outcome_eq_halted_iff, snapshot_eq_some_iff, snapshot_regs_of_lockstep h, samePlace_same_unit hplace]
  rw [hst] at hstatus
  generalize t.status = st' at hstatus
  cases hstatus
  exact ⟨rfl, rfl⟩

/-- Images that begin with the same bytes have the same words there. -/
theorem agreeBelow_of_load_append {pre tail tail' : List Byte} {m m' : Memory} (h : Memory.load (pre ++ tail) = .ok m)
    (h' : Memory.load (pre ++ tail') = .ok m') : AgreeBelow (pre.length / 4) m m' := by
  obtain ⟨-, hbyte⟩ := load_ok h
  obtain ⟨-, hbyte'⟩ := load_ok h'
  refine fun i hi => readWord_congr fun k hk => ?_
  have hinside : 4 * i + k < pre.length := by omega
  rw [hbyte, hbyte', List.getElem?_append_left hinside, List.getElem?_append_left hinside]

/-- A run that gives the host an outcome reaches a state with that outcome. -/
theorem run_of_execute {u : PcUnit} {m : Memory} {o : ExecutionOutcome} (h : execute (State.start u m) = some o) :
    ∃ k t, run k (State.start u m) = .next t ∧ t.outcome = some o := by
  obtain ⟨t, hrun, hend⟩ := run_ends (start_pcInImage u m)
  exact ⟨_, t, hrun, by rw [← execute_of_run (start_pcInImage u m) hrun hend, h]⟩

/-- Settles O53: the two runs are in lockstep to the halting word, and no word behind it is fetched. -/
theorem wordsBehindTheHaltingEcallMayBeAnything : Obligations.WordsBehindTheHaltingEcallMayBeAnything := by
  unfold Obligations.WordsBehindTheHaltingEcallMayBeAnything
  rintro u pre tail tail' P ⟨m, q, hload, hexec, hinside, hP⟩ h4 hlen
  obtain ⟨m', hload'⟩ := load_of_le h4 hlen
  obtain ⟨k, s, hs, hq⟩ := run_of_execute hexec
  have hunit : s.pcUnit = u := (run_mem hs).2
  have hindex : wordIndex s.pcUnit s.pc < pre.length / 4 := by
    obtain ⟨-, rfl⟩ := (snapshot_eq_some_iff s q).mp ((outcome_eq_halted_iff s q).mp hq)
    rw [hunit, wordIndex]
    dsimp only at hinside
    omega
  obtain ⟨t, ht, hlock⟩ := run_lockstep (agreeBelow_of_load_append hload hload') (start_lockstep u u m m') hs hindex
  have hq' := outcome_halted_of_lockstep hlock (hunit.trans (run_mem ht).2.symm) hq
  have hend : t.status ≠ .running := fun hrun => by
    rw [(outcome_eq_none_iff t).mpr hrun] at hq'
    cases hq'
  exact ⟨m', q, hload', (execute_of_run (start_pcInImage u m') ht hend).trans hq', hP⟩

/-- A run that halts does so at a word of its image. -/
theorem haltsWith_inside {u : PcUnit} {bytes : List Byte} {P : Snapshot → Prop} (h : HaltsWith u bytes P) :
    HaltsWith u bytes fun q => 4 * (q.pc.toNat / u.toNat) + 4 ≤ bytes.length ∧ P q := by
  obtain ⟨m, q, hload, hexec, hP⟩ := h
  obtain ⟨o, ho, hhalted, -⟩ := everyLoadedImageHasATrueOutcome u bytes m hload
  cases ho.symm.trans hexec
  obtain ⟨-, w, hfetch, -⟩ := hhalted q rfl
  obtain ⟨hlen, -⟩ := load_ok hload
  have hin : wordIndex u q.pc < m.lenWords.val := by
    rw [← inBounds_eq_true, ← fetchWord_isSome, hfetch, Option.isSome_some]
  rw [wordIndex] at hin
  rw [Memory.lenBytes] at hlen
  exact ⟨m, q, hload, hexec, by omega, hP⟩

/-- Settles O49: the halting word lies within the image, and the appended bytes are another tail behind it. -/
theorem bytesAppendedToAHaltingImageMayBeAnything : Obligations.BytesAppendedToAHaltingImageMayBeAnything := by
  unfold Obligations.BytesAppendedToAHaltingImageMayBeAnything
  intro u bytes extra P h
  apply wordsBehindTheHaltingEcallMayBeAnything u bytes [] extra P
  rw [List.append_nil]
  exact haltsWith_inside h

end Sys2Proof.Machine
end
